-- ==== Sys2Proof/Word.lean ====
section
/-!
DEFINITION. The value types of the block: bytes, 16-bit words and the names of its registers,
keys and display coordinates (spec/00_scope.md R8, R10, R11).
-/

namespace Sys2Proof

/-- One byte: a general register, a timer, a memory cell (R8: V_WIDTH, TIMER_WIDTH). -/
abbrev Byte := BitVec 8

/-- A 16-bit word: I, PC, a return address, an instruction word (R8: I_WIDTH, PC_WIDTH). -/
abbrev Word := BitVec 16

/-- A general register's number, V0 to VF (10_state.md R21). -/
abbrev RegIx := Fin 16

/-- A key's number, 0x0 to 0xF (44_input_and_timers.md R139). -/
abbrev KeyIx := Fin 16

/-- The register that some instructions write as a flag: VF is V[15] (10_state.md R22). -/
abbrev vf : RegIx := 15

end Sys2Proof
end

