-- ==== Sys2Proof/Syntax.lean ====
section
/-!
DEFINITION. The instruction set: one constructor per row of spec/opcode_table.json, in the
table's order, named after the decode names of spec/30_encoding.md R82.
-/

namespace Sys2Proof

/-- The 34 instructions (30_encoding.md R79, R82). Register operands are register numbers,
`kk` and `nnn` the immediate bits, `n` a count of sprite rows (R70, R71). -/
inductive Instr where
  /-- 00E0: clear the display. -/
  | cls
  /-- 00EE: return from subroutine. -/
  | ret
  /-- 1nnn: jump. -/
  | jp (nnn : BitVec 12)
  /-- 2nnn: call subroutine. -/
  | call (nnn : BitVec 12)
  /-- 3xkk: skip if Vx = kk. -/
  | seK (x : RegIx) (kk : Byte)
  /-- 4xkk: skip if Vx is not kk. -/
  | sneK (x : RegIx) (kk : Byte)
  /-- 5xy0: skip if Vx = Vy. -/
  | seR (x y : RegIx)
  /-- 6xkk: load immediate. -/
  | ldK (x : RegIx) (kk : Byte)
  /-- 7xkk: add immediate, no flag. -/
  | addK (x : RegIx) (kk : Byte)
  /-- 8xy0: copy register. -/
  | ldR (x y : RegIx)
  /-- 8xy1: bitwise OR. -/
  | orR (x y : RegIx)
  /-- 8xy2: bitwise AND. -/
  | andR (x y : RegIx)
  /-- 8xy3: bitwise XOR. -/
  | xorR (x y : RegIx)
  /-- 8xy4: add registers with carry. -/
  | addR (x y : RegIx)
  /-- 8xy5: subtract Vx - Vy. -/
  | sub (x y : RegIx)
  /-- 8xy6: shift Vy right into Vx. -/
  | shr (x y : RegIx)
  /-- 8xy7: subtract Vy - Vx. -/
  | subn (x y : RegIx)
  /-- 8xyE: shift Vy left into Vx. -/
  | shl (x y : RegIx)
  /-- 9xy0: skip if Vx is not Vy. -/
  | sneR (x y : RegIx)
  /-- Annn: load I. -/
  | ldI (nnn : BitVec 12)
  /-- Bnnn: jump to nnn + V0. -/
  | jpV0 (nnn : BitVec 12)
  /-- Cxkk: random byte AND kk. -/
  | rnd (x : RegIx) (kk : Byte)
  /-- Dxyn: draw a sprite of n rows. -/
  | drw (x y : RegIx) (n : Nat)
  /-- Ex9E: skip if key Vx is pressed. -/
  | skp (x : RegIx)
  /-- ExA1: skip if key Vx is not pressed. -/
  | sknp (x : RegIx)
  /-- Fx07: read the delay timer. -/
  | ldVDT (x : RegIx)
  /-- Fx0A: wait for a key. -/
  | ldVK (x : RegIx)
  /-- Fx15: set the delay timer. -/
  | ldDTV (x : RegIx)
  /-- Fx18: set the sound timer. -/
  | ldSTV (x : RegIx)
  /-- Fx1E: add Vx to I. -/
  | addI (x : RegIx)
  /-- Fx29: I to the glyph of Vx. -/
  | ldF (x : RegIx)
  /-- Fx33: store the decimal digits of Vx. -/
  | ldB (x : RegIx)
  /-- Fx55: store V0 to Vx. -/
  | ldMI (x : RegIx)
  /-- Fx65: load V0 to Vx. -/
  | ldVMI (x : RegIx)
deriving DecidableEq, Repr

end Sys2Proof
end

