-- ==== Sys2Proof/WellFormed.lean ====
section
/-!
DEFINITION. Which terms of `Instr` an encoding can hold (spec/30_encoding.md R70, R71). Register
numbers, `kk` and `nnn` are in range by their types; the one operand whose type is wider than its
field is the row count of Dxyn.
-/

namespace Sys2Proof

/-- An instruction the encoding admits: the row count of Dxyn fits its 4-bit field `n` (R71).
Every value of every other operand is legal (R70, R71). -/
def Instr.wellFormed (i : Instr) : Bool :=
  match i with
  | .drw _ _ n => decide (n < 16)
  | .cls | .ret | .jp _ | .call _ | .seK _ _ | .sneK _ _ | .seR _ _ | .ldK _ _ | .addK _ _
  | .ldR _ _ | .orR _ _ | .andR _ _ | .xorR _ _ | .addR _ _ | .sub _ _ | .shr _ _ | .subn _ _
  | .shl _ _ | .sneR _ _ | .ldI _ | .jpV0 _ | .rnd _ _ | .skp _ | .sknp _ | .ldVDT _ | .ldVK _
  | .ldDTV _ | .ldSTV _ | .addI _ | .ldF _ | .ldB _ | .ldMI _ | .ldVMI _ => true

end Sys2Proof
end

