-- ==== Sys2Proof/Decode.lean ====
section
/-!
DEFINITION. Decoding and encoding of the 16-bit instruction words (spec/30_encoding.md), and the
opcode table's masks and patterns (spec/opcode_table.json).
-/

namespace Sys2Proof

/-- Why bytes are not an instruction. -/
inductive DecodeError where
  /-- The word matches no row of the table (30_encoding.md R78). -/
  | unknown (w : Word)
  /-- Fewer than two bytes were given, so there is no word to decode. -/
  | truncated (bytes : Nat)
deriving DecidableEq, Repr

/-- The opcode-family nibble, bits 15 to 12 (30_encoding.md R68). -/
def fieldOp (w : Word) : BitVec 4 := w.extractLsb' 12 4

/-- The register number `x`, bits 11 to 8 (R68). -/
def fieldX (w : Word) : RegIx := (w.extractLsb' 8 4).toFin

/-- The register number `y`, bits 7 to 4 (R68). -/
def fieldY (w : Word) : RegIx := (w.extractLsb' 4 4).toFin

/-- The immediate nibble `n`, bits 3 to 0 (R68). -/
def fieldN (w : Word) : BitVec 4 := w.extractLsb' 0 4

/-- The immediate byte `kk`, bits 7 to 0 (R68). -/
def fieldKK (w : Word) : Byte := w.extractLsb' 0 8

/-- The immediate address `nnn`, bits 11 to 0 (R68). -/
def fieldNNN (w : Word) : BitVec 12 := w.extractLsb' 0 12

/-- Family 0x8, selected by the low nibble (30_encoding.md R75). -/
def decodeFamily8 (w : Word) : Except DecodeError Instr :=
  match fieldN w with
  | 0x0#4 => .ok (.ldR (fieldX w) (fieldY w))
  | 0x1#4 => .ok (.orR (fieldX w) (fieldY w))
  | 0x2#4 => .ok (.andR (fieldX w) (fieldY w))
  | 0x3#4 => .ok (.xorR (fieldX w) (fieldY w))
  | 0x4#4 => .ok (.addR (fieldX w) (fieldY w))
  | 0x5#4 => .ok (.sub (fieldX w) (fieldY w))
  | 0x6#4 => .ok (.shr (fieldX w) (fieldY w))
  | 0x7#4 => .ok (.subn (fieldX w) (fieldY w))
  | 0xE#4 => .ok (.shl (fieldX w) (fieldY w))
  | _ => .error (.unknown w)

/-- Family 0xE, selected by the low byte (30_encoding.md R76). -/
def decodeFamilyE (w : Word) : Except DecodeError Instr :=
  match fieldKK w with
  | 0x9E#8 => .ok (.skp (fieldX w))
  | 0xA1#8 => .ok (.sknp (fieldX w))
  | _ => .error (.unknown w)

/-- Family 0xF, selected by the low byte (30_encoding.md R76). -/
def decodeFamilyF (w : Word) : Except DecodeError Instr :=
  match fieldKK w with
  | 0x07#8 => .ok (.ldVDT (fieldX w))
  | 0x0A#8 => .ok (.ldVK (fieldX w))
  | 0x15#8 => .ok (.ldDTV (fieldX w))
  | 0x18#8 => .ok (.ldSTV (fieldX w))
  | 0x1E#8 => .ok (.addI (fieldX w))
  | 0x29#8 => .ok (.ldF (fieldX w))
  | 0x33#8 => .ok (.ldB (fieldX w))
  | 0x55#8 => .ok (.ldMI (fieldX w))
  | 0x65#8 => .ok (.ldVMI (fieldX w))
  | _ => .error (.unknown w)

/-- The dispatch function, total on every word (30_encoding.md R79). Families 0, 5 and 9 accept only
the words their rows are written with (R74, R77; 92_eei_decisions.md D3; log 14). -/
def decodeWord (w : Word) : Except DecodeError Instr :=
  match fieldOp w with
  | 0x0#4 =>
    if w = 0x00E0#16 then .ok .cls
    else if w = 0x00EE#16 then .ok .ret
    else .error (.unknown w)
  | 0x1#4 => .ok (.jp (fieldNNN w))
  | 0x2#4 => .ok (.call (fieldNNN w))
  | 0x3#4 => .ok (.seK (fieldX w) (fieldKK w))
  | 0x4#4 => .ok (.sneK (fieldX w) (fieldKK w))
  | 0x5#4 => if fieldN w = 0#4 then .ok (.seR (fieldX w) (fieldY w)) else .error (.unknown w)
  | 0x6#4 => .ok (.ldK (fieldX w) (fieldKK w))
  | 0x7#4 => .ok (.addK (fieldX w) (fieldKK w))
  | 0x8#4 => decodeFamily8 w
  | 0x9#4 => if fieldN w = 0#4 then .ok (.sneR (fieldX w) (fieldY w)) else .error (.unknown w)
  | 0xA#4 => .ok (.ldI (fieldNNN w))
  | 0xB#4 => .ok (.jpV0 (fieldNNN w))
  | 0xC#4 => .ok (.rnd (fieldX w) (fieldKK w))
  | 0xD#4 => .ok (.drw (fieldX w) (fieldY w) (fieldN w).toNat)
  | 0xE#4 => decodeFamilyE w
  | _ => decodeFamilyF w

/-- The word at two bytes, the first the more significant (20_memory.md R50, R56). -/
def wordOfBytes (hi lo : Byte) : Word := hi ++ lo

/-- Decode the instruction at the head of a byte sequence and give the bytes after it. Total:
bytes that are no instruction are rejected by name. -/
def decode : List Byte → Except DecodeError (Instr × List Byte)
  | hi :: lo :: rest =>
    match decodeWord (wordOfBytes hi lo) with
    | .ok i => .ok (i, rest)
    | .error e => .error e
  | [_] => .error (.truncated 1)
  | [] => .error (.truncated 0)

/-! ## The encoder -/

/-- A register number as its 4-bit field. -/
def nibble (x : RegIx) : BitVec 4 := BitVec.ofFin x

/-- A word of format NNN (30_encoding.md R72). -/
def wordNNN (op : BitVec 4) (nnn : BitVec 12) : Word := op ++ nnn

/-- A word of format XKK, and with a fixed `kk` of format X (R72). -/
def wordXKK (op : BitVec 4) (x : RegIx) (kk : Byte) : Word := op ++ (nibble x ++ kk)

/-- A word of format XYN, and with a fixed `n` of format XY (R72). -/
def wordXYN (op : BitVec 4) (x y : RegIx) (n : BitVec 4) : Word :=
  op ++ (nibble x ++ (nibble y ++ n))

/-- The word of an instruction, from the rows of spec/opcode_table.json. -/
def encodeWord (i : Instr) : Word :=
  match i with
  | .cls => 0x00E0#16
  | .ret => 0x00EE#16
  | .jp nnn => wordNNN 0x1 nnn
  | .call nnn => wordNNN 0x2 nnn
  | .seK x kk => wordXKK 0x3 x kk
  | .sneK x kk => wordXKK 0x4 x kk
  | .seR x y => wordXYN 0x5 x y 0x0
  | .ldK x kk => wordXKK 0x6 x kk
  | .addK x kk => wordXKK 0x7 x kk
  | .ldR x y => wordXYN 0x8 x y 0x0
  | .orR x y => wordXYN 0x8 x y 0x1
  | .andR x y => wordXYN 0x8 x y 0x2
  | .xorR x y => wordXYN 0x8 x y 0x3
  | .addR x y => wordXYN 0x8 x y 0x4
  | .sub x y => wordXYN 0x8 x y 0x5
  | .shr x y => wordXYN 0x8 x y 0x6
  | .subn x y => wordXYN 0x8 x y 0x7
  | .shl x y => wordXYN 0x8 x y 0xE
  | .sneR x y => wordXYN 0x9 x y 0x0
  | .ldI nnn => wordNNN 0xA nnn
  | .jpV0 nnn => wordNNN 0xB nnn
  | .rnd x kk => wordXKK 0xC x kk
  | .drw x y n => wordXYN 0xD x y (BitVec.ofNat 4 n)
  | .skp x => wordXKK 0xE x 0x9E
  | .sknp x => wordXKK 0xE x 0xA1
  | .ldVDT x => wordXKK 0xF x 0x07
  | .ldVK x => wordXKK 0xF x 0x0A
  | .ldDTV x => wordXKK 0xF x 0x15
  | .ldSTV x => wordXKK 0xF x 0x18
  | .addI x => wordXKK 0xF x 0x1E
  | .ldF x => wordXKK 0xF x 0x29
  | .ldB x => wordXKK 0xF x 0x33
  | .ldMI x => wordXKK 0xF x 0x55
  | .ldVMI x => wordXKK 0xF x 0x65

/-- The more significant byte of a word. -/
def highByte (w : Word) : Byte := w.extractLsb' 8 8

/-- The less significant byte of a word. -/
def lowByte (w : Word) : Byte := w.extractLsb' 0 8

/-- The two bytes of a word in memory order, big-endian (20_memory.md R56). -/
def bytesOfWord (w : Word) : List Byte := [highByte w, lowByte w]

/-- The bytes of an instruction in memory order. -/
def encode (i : Instr) : List Byte := bytesOfWord (encodeWord i)

/-! ## The opcode table -/

/-- A row of spec/opcode_table.json: its mnemonic, and the words it names. -/
structure OpcodeRow where
  mnemonic : String
  pattern : Word
  mask : Word
deriving DecidableEq, Repr

/-- The row of an instruction, copied from spec/opcode_table.json. -/
def opcodeRow (i : Instr) : OpcodeRow :=
  match i with
  | .cls => ⟨"00E0", 0x00E0, 0xFFFF⟩
  | .ret => ⟨"00EE", 0x00EE, 0xFFFF⟩
  | .jp _ => ⟨"1nnn", 0x1000, 0xF000⟩
  | .call _ => ⟨"2nnn", 0x2000, 0xF000⟩
  | .seK _ _ => ⟨"3xkk", 0x3000, 0xF000⟩
  | .sneK _ _ => ⟨"4xkk", 0x4000, 0xF000⟩
  | .seR _ _ => ⟨"5xy0", 0x5000, 0xF00F⟩
  | .ldK _ _ => ⟨"6xkk", 0x6000, 0xF000⟩
  | .addK _ _ => ⟨"7xkk", 0x7000, 0xF000⟩
  | .ldR _ _ => ⟨"8xy0", 0x8000, 0xF00F⟩
  | .orR _ _ => ⟨"8xy1", 0x8001, 0xF00F⟩
  | .andR _ _ => ⟨"8xy2", 0x8002, 0xF00F⟩
  | .xorR _ _ => ⟨"8xy3", 0x8003, 0xF00F⟩
  | .addR _ _ => ⟨"8xy4", 0x8004, 0xF00F⟩
  | .sub _ _ => ⟨"8xy5", 0x8005, 0xF00F⟩
  | .shr _ _ => ⟨"8xy6", 0x8006, 0xF00F⟩
  | .subn _ _ => ⟨"8xy7", 0x8007, 0xF00F⟩
  | .shl _ _ => ⟨"8xyE", 0x800E, 0xF00F⟩
  | .sneR _ _ => ⟨"9xy0", 0x9000, 0xF00F⟩
  | .ldI _ => ⟨"Annn", 0xA000, 0xF000⟩
  | .jpV0 _ => ⟨"Bnnn", 0xB000, 0xF000⟩
  | .rnd _ _ => ⟨"Cxkk", 0xC000, 0xF000⟩
  | .drw _ _ _ => ⟨"Dxyn", 0xD000, 0xF000⟩
  | .skp _ => ⟨"Ex9E", 0xE09E, 0xF0FF⟩
  | .sknp _ => ⟨"ExA1", 0xE0A1, 0xF0FF⟩
  | .ldVDT _ => ⟨"Fx07", 0xF007, 0xF0FF⟩
  | .ldVK _ => ⟨"Fx0A", 0xF00A, 0xF0FF⟩
  | .ldDTV _ => ⟨"Fx15", 0xF015, 0xF0FF⟩
  | .ldSTV _ => ⟨"Fx18", 0xF018, 0xF0FF⟩
  | .addI _ => ⟨"Fx1E", 0xF01E, 0xF0FF⟩
  | .ldF _ => ⟨"Fx29", 0xF029, 0xF0FF⟩
  | .ldB _ => ⟨"Fx33", 0xF033, 0xF0FF⟩
  | .ldMI _ => ⟨"Fx55", 0xF055, 0xF0FF⟩
  | .ldVMI _ => ⟨"Fx65", 0xF065, 0xF0FF⟩

/-! ## The host's view of the decoder -/

/-- The word of a table row: its lowest `nbits` bits, every bit above 0. -/
def tableWord (nbits w : Nat) : Word := BitVec.ofNat 16 (w % 2 ^ nbits)

/-- The instruction the decoder reads from a table row's word. The table numbers the bits of the one
16-bit word with bit 0 the least significant (00_scope.md R10), and the hardware stores the word
with its more significant byte first (20_memory.md R56). -/
def decodeTableWord (nbits w : Nat) : Option Instr :=
  match decode (bytesOfWord (tableWord nbits w)) with
  | .ok (i, _) => some i
  | .error _ => none

end Sys2Proof
end

