-- ==== Sys2Proof/Config.lean ====
section
/-!
DEFINITION. What is fixed for the block: its sizes (spec/00_scope.md R8), the types of the
parameters the spec leaves open (R9), and the free values, constants with no body.
-/

namespace Sys2Proof.Config

/-- The highest memory address, 0xFFF (R8: MAX_ADDR). -/
abbrev maxAddr : Nat := 0xFFF

/-- The first address above the font region 0x000 to 0x04F (10_state.md R32). -/
abbrev fontEnd : Nat := 0x050

/-- The program load address and the reset value of PC (R8: PROG_BASE). -/
abbrev progBase : Nat := 0x200

/-- The longest program, in bytes (R8: PROG_MAX). -/
abbrev progMax : Nat := 3584

/-- What an instruction's write into 0x000 to 0x04F does: the parameter FONT_WRITE
(92_eei_decisions.md D4; log 3). -/
inductive FontWrite where
  | refuse
  | store
deriving DecidableEq, Repr

/-- What the result statement of 8xy5, 8xy6, 8xy7 and 8xyE reads: the parameter VF_ALIAS
(92_eei_decisions.md D2; log 2). -/
inductive VfAlias where
  | sequential
  | snapshot
deriving DecidableEq, Repr

/-- Sixteen glyphs of five bytes: the parameter FONT_DATA (92_eei_decisions.md D18; log 4). -/
abbrev FontData := Vector (Vector Byte 5) 16

/-- Free value: the random byte of the `k`-th draw, for a Cxkk that finds no byte lined up by the
random source (41_alu.md R117, D9; log 7). -/
opaque freeByte : Nat → Byte

/-- Free value: the pressed state, at the `k`-th draw, of a key number above 15
(44_input_and_timers.md R140, D7; log 9). -/
opaque freeKeyLevel : Nat → Bool

/-- Free value: which of several pressed keys Fx0A stores at the `k`-th draw, taken modulo how
many are pressed (44_input_and_timers.md R144, D8; log 10). -/
opaque freeKeyChoice : Nat → Nat

end Sys2Proof.Config
end

