-- ==== Sys2Proof/Machine/Defaults.lean ====
section
/-!
DEFINITION. The spec's default value of each open parameter (spec/00_scope.md R9), and what a byte of
memory holds after reset (spec/10_state.md R46).
-/

namespace Sys2Proof.Machine

open Sys2Proof

/-- The conventional CHIP-8 font, the spec's default FONT_DATA (10_state.md R33, D18).
PRESUMED: general knowledge, not in the source (log 4). -/
def conventionalFont : Config.FontData := #v[
  #v[0xF0, 0x90, 0x90, 0x90, 0xF0],
  #v[0x20, 0x60, 0x20, 0x20, 0x70],
  #v[0xF0, 0x10, 0xF0, 0x80, 0xF0],
  #v[0xF0, 0x10, 0xF0, 0x10, 0xF0],
  #v[0x90, 0x90, 0xF0, 0x10, 0x10],
  #v[0xF0, 0x80, 0xF0, 0x10, 0xF0],
  #v[0xF0, 0x80, 0xF0, 0x90, 0xF0],
  #v[0xF0, 0x10, 0x20, 0x40, 0x40],
  #v[0xF0, 0x90, 0xF0, 0x90, 0xF0],
  #v[0xF0, 0x90, 0xF0, 0x10, 0xF0],
  #v[0xF0, 0x90, 0xF0, 0x90, 0x90],
  #v[0xE0, 0x90, 0xE0, 0x90, 0xE0],
  #v[0xF0, 0x80, 0x80, 0x80, 0xF0],
  #v[0xE0, 0x90, 0x90, 0x90, 0xE0],
  #v[0xF0, 0x80, 0xF0, 0x80, 0xF0],
  #v[0xF0, 0x80, 0xF0, 0x80, 0x80]]

/-- The byte at address `a` after a reset that installs the font `font`: byte `a mod 5` of glyph
`a div 5` in the font region, 0 above it (10_state.md R33, R46). -/
def resetByteOf (font : Config.FontData) (a : Nat) : Byte :=
  if h : a < 80 then (font[a / 5])[a % 5]'(Nat.mod_lt a (by decide)) else 0

/-- What a memory address that no entry lists reads as: its byte after a reset with the default
font (log 4, log 12). -/
def resetByte (a : Nat) : Byte := resetByteOf conventionalFont a

/-- The spec's default of FONT_WRITE (92_eei_decisions.md D4; log 3). -/
def defaultFontWrite : Config.FontWrite := .refuse

/-- The spec's default of VF_ALIAS (92_eei_decisions.md D2; log 2). -/
def defaultVfAlias : Config.VfAlias := .sequential

end Sys2Proof.Machine
end

