-- ==== Sys2Proof/Machine/State.lean ====
section
/-!
DEFINITION. The state of the block (spec/10_state.md R20), the reasons a step stops, and the state
after reset (R46).
-/

namespace Sys2Proof.Machine

open Sys2Proof

/-- The four fatal errors with the info they record (60_exceptions.md R149; the info is
92_eei_decisions.md D10, log 17). All four are the hardware's own errors, so raising one is exact. -/
inductive Fault where
  /-- Raised by decode: the fetched word matches no row (R151). Safe: the hardware reports it too. -/
  | unknownInstruction (w : Word)
  /-- Raised by the fetch, Dxyn, Fx33, Fx55 and Fx65: the lowest address above 0xFFF that the step
  would access (R152). Safe: the hardware reports it too. -/
  | addressOutOfRange (a : Nat)
  /-- Raised by 2nnn when 16 addresses are on the stack (R153). Safe: the hardware reports it too. -/
  | stackOverflow
  /-- Raised by 00EE when the stack is empty (R154). Safe: the hardware reports it too (the policy is
  92_eei_decisions.md D21, log 22). -/
  | stackUnderflow
deriving DecidableEq, Repr

/-- Outcomes the model gives no hardware meaning (00_scope.md R18). -/
inductive Refusal where
  /-- Raised by an arm of `exec` whose instruction has no meaning yet. Safe: nothing is claimed. -/
  | notModelled (mnemonic : String)
  /-- Raised by Fx33 and Fx55 when they would write the font byte `a` and FONT_WRITE is `refuse`
  (42_index_and_memory.md R120). Safe: the model stops where a hardware might go on (log 3). -/
  | fontWrite (a : Nat)
  /-- Raised by the host's `loadProgram` for a program of `len` bytes, above 3584
  (70_reset_and_hazards.md R176). Safe: the action has no meaning (log 18). -/
  | programTooLong (len : Nat)
deriving DecidableEq, Repr

/-- Memory: address and byte pairs in one canonical form (`Memory.wf`); an address with no entry
reads as `resetByte`. -/
abbrev Memory := List Host.Cell

/-- The display: 32 rows of 64 cells, `true` a set cell (10_state.md R35). -/
abbrev Display := Vector (Vector Bool 64) 32

/-- The parameters the spec leaves open (00_scope.md R9; log 5). No step and no host transaction
writes them. -/
structure Params where
  /-- FONT_WRITE. -/
  fontWrite : Config.FontWrite
  /-- VF_ALIAS. -/
  vfAlias : Config.VfAlias
  /-- FONT_DATA, read by reset alone. -/
  font : Config.FontData
deriving DecidableEq, Repr

/-- The state: the tuple of 10_state.md R20, the inputs of R40, the open parameters of
00_scope.md R9, and the model's draw counter. -/
structure State where
  /-- MEM, 4096 bytes. -/
  mem : Memory
  /-- V[0] to V[15]. -/
  v : Vector Byte 16
  /-- The index register I. -/
  index : Word
  /-- The program counter PC. -/
  pc : Word
  /-- STACK[0] to STACK[15]. -/
  stack : Vector Word 16
  /-- SP, how many addresses are on the stack, 0 to 16 (10_state.md R29, D19; log 11). -/
  sp : Fin 17
  /-- The delay timer DT. -/
  dt : Byte
  /-- The sound timer ST. -/
  st : Byte
  /-- DISP. -/
  disp : Display
  /-- HALT: the recorded fault of a halted block (10_state.md R37; log 1). -/
  halt : Option Fault
  /-- Input KEY: the present level of the 16 keys (44_input_and_timers.md R139; log 6). -/
  keys : Vector Bool 16
  /-- Input RAND: bytes the random source has lined up, oldest first (41_alu.md R117; log 7). -/
  rand : List Byte
  /-- The model's own: how many free values have been drawn (log 8). -/
  draws : Nat
  /-- The open parameters. -/
  params : Params
deriving DecidableEq, Repr

/-- The state right after reset (10_state.md R46), with the default parameters, no key pressed, no
random byte lined up and no free value drawn (log 2, 3, 4, 6, 7, 8). -/
def State.reset : State where
  mem := []
  v := Vector.replicate 16 0
  index := 0
  pc := 0x200
  stack := Vector.replicate 16 0
  sp := 0
  dt := 0
  st := 0
  disp := Vector.replicate 32 (Vector.replicate 64 false)
  halt := none
  keys := Vector.replicate 16 false
  rand := []
  draws := 0
  params := ⟨defaultFontWrite, defaultVfAlias, conventionalFont⟩

end Sys2Proof.Machine
end

