-- ==== Sys2Proof/Machine/Ops.lean ====
section
/-!
DEFINITION. The shared operations: memory, registers, program counter, call stack, free draws, and
raising a fatal error.
-/

namespace Sys2Proof.Machine

open Sys2Proof

/-- What one step or one meaning answers. -/
abbrev Result := Host.Outcome State Fault Refusal

/-! ## Memory as data -/

/-- The byte at an address; an address with no entry holds its reset byte (log 12). -/
def Memory.read : Memory → Nat → Byte
  | [], a => resetByte a
  | (b, v) :: rest, a => if a = b then v else Memory.read rest a

/-- Put an entry in its place, replacing one of the same address. -/
def Memory.insert : Memory → Nat → Byte → Memory
  | [], a, v => [(a, v)]
  | (b, w) :: rest, a, v =>
    if a < b then (a, v) :: (b, w) :: rest
    else if a = b then (a, v) :: rest
    else (b, w) :: Memory.insert rest a v

/-- Drop the entry of an address, if there is one. -/
def Memory.erase : Memory → Nat → Memory
  | [], _ => []
  | (b, w) :: rest, a => if a = b then rest else (b, w) :: Memory.erase rest a

/-- Store a byte, keeping the canonical form: an address that holds its reset byte has no entry. -/
def Memory.write (m : Memory) (a : Nat) (v : Byte) : Memory :=
  if v = resetByte a then Memory.erase m a else Memory.insert m a v

/-- Store bytes at consecutive addresses from `a`, in ascending order (20_memory.md R54). -/
def Memory.writeBytes : Memory → Nat → List Byte → Memory
  | m, _, [] => m
  | m, a, v :: vs => Memory.writeBytes (Memory.write m a v) (a + 1) vs

/-- The entries rise strictly from `lo`, stay within 0x000 to 0xFFF, and none equals the reset byte
of its address. -/
def Memory.wfFrom : Nat → Memory → Bool
  | _, [] => true
  | lo, (b, w) :: rest =>
    decide (lo ≤ b) && decide (b ≤ Config.maxAddr) && decide (w ≠ resetByte b)
      && Memory.wfFrom (b + 1) rest

/-- The canonical form of memory. -/
def Memory.wf (m : Memory) : Bool := Memory.wfFrom 0 m

/-! ## Addresses -/

/-- The `count` addresses from `base` on, in ascending order, as unbounded integers
(20_memory.md R51, D14; log 16). -/
def addressesFrom (base count : Nat) : List Nat := (List.range count).map (base + ·)

/-- The lowest address above 0xFFF among ascending addresses (60_exceptions.md R152, D10). -/
def lowestOutOfRange (addrs : List Nat) : Option Nat :=
  addrs.find? (fun a => decide (Config.maxAddr < a))

/-- The lowest font-region address among ascending addresses (42_index_and_memory.md R120). -/
def lowestFontAddress (addrs : List Nat) : Option Nat :=
  addrs.find? (fun a => decide (a < Config.fontEnd))

/-! ## Registers and fields -/

/-- V[x] (10_state.md R21). -/
def State.getV (s : State) (x : RegIx) : Byte := s.v[x.val]

/-- V[x] <- b (10_state.md R21). -/
def State.setV (s : State) (x : RegIx) (b : Byte) : State := { s with v := s.v.set x.val b }

/-- I <- w (10_state.md R25). -/
def State.setIndex (s : State) (w : Word) : State := { s with index := w }

/-- PC <- w. No target is checked (40_step_and_control.md R99). -/
def State.setPc (s : State) (w : Word) : State := { s with pc := w }

/-- PC <- (PC + 2) mod 65536, the default update (40_step_and_control.md R86). -/
def State.advance (s : State) : State := s.setPc (s.pc + 2)

/-- PC + 4 when the skip is taken, PC + 2 when not (40_step_and_control.md R86, R87). -/
def State.skipIf (s : State) (taken : Bool) : State :=
  if taken then s.setPc (s.pc + 4) else s.advance

/-- DT <- b (44_input_and_timers.md R146). -/
def State.setDt (s : State) (b : Byte) : State := { s with dt := b }

/-- ST <- b (44_input_and_timers.md R147). -/
def State.setSt (s : State) (b : Byte) : State := { s with st := b }

/-- MEM <- m. -/
def State.setMem (s : State) (m : Memory) : State := { s with mem := m }

/-- DISP <- d. -/
def State.setDisp (s : State) (d : Display) : State := { s with disp := d }

/-- STACK <- slots and SP <- k. -/
def State.setStack (s : State) (slots : Vector Word 16) (k : Fin 17) : State :=
  { s with stack := slots, sp := k }

/-- HALT <- h. -/
def State.setHalt (s : State) (h : Option Fault) : State := { s with halt := h }

/-- The input RAND <- bytes. -/
def State.setRand (s : State) (bytes : List Byte) : State := { s with rand := bytes }

/-- One more free value has been drawn (log 8). -/
def State.countDraw (s : State) : State := { s with draws := s.draws + 1 }

/-! ## Raising a fatal error -/

/-- Raise a fatal error: the step ends with it, and every write it made is discarded
(00_scope.md R15, 60_exceptions.md R150). There is no trap vector, no saved state and no handler
(R157); what the error leaves in the state is `State.recordFault`. -/
def raise (f : Fault) : Result := .fault f

/-- The code of an error's kind (60_exceptions.md R149; the numbers are 92_eei_decisions.md D10,
log 17). -/
def faultCode (f : Fault) : Nat :=
  match f with
  | .unknownInstruction _ => 0
  | .addressOutOfRange _ => 1
  | .stackOverflow => 2
  | .stackUnderflow => 3

/-- The state a fatal error leaves: the state before the step with HALT set
(60_exceptions.md R150, 10_state.md R37, D11; log 1). There is no return from it but `reset`
(60_exceptions.md R158). -/
def State.recordFault (f : Fault) (s : State) : State := s.setHalt (some f)

/-! ## Memory access of a step -/

/-- The byte at an address of the state's memory. -/
def State.byteAt (s : State) (a : Nat) : Byte := Memory.read s.mem a

/-- The `count` bytes from `base` on (00_scope.md R14, byte by byte, ascending: 20_memory.md R54). -/
def State.bytesFrom (s : State) (base count : Nat) : List Byte :=
  (addressesFrom base count).map s.byteAt

/-- Read `count` bytes from `base` on and go on with them; raise `AddressOutOfRange` before anything
else if one of the addresses is above 0xFFF (20_memory.md R49, R53; 42_index_and_memory.md R119). -/
def loadThen (s : State) (base count : Nat) (k : List Byte → Result) : Result :=
  match lowestOutOfRange (addressesFrom base count) with
  | some a => raise (.addressOutOfRange a)
  | none => k (s.bytesFrom base count)

/-- Store bytes from `base` on and go on with the new state. Every address is checked before any
write: out of range first, then the font region under FONT_WRITE (42_index_and_memory.md R119,
R120, D4; log 3). -/
def storeThen (s : State) (base : Nat) (bytes : List Byte) (k : State → Result) : Result :=
  match lowestOutOfRange (addressesFrom base bytes.length) with
  | some a => raise (.addressOutOfRange a)
  | none =>
    match s.params.fontWrite, lowestFontAddress (addressesFrom base bytes.length) with
    | .refuse, some a => .refused (.fontWrite a)
    | _, _ => k (s.setMem (Memory.writeBytes s.mem base bytes))

/-! ## The call stack -/

/-- push(a), then go on: `StackOverflow` on a full stack (10_state.md R30). -/
def pushThen (s : State) (a : Word) (k : State → Result) : Result :=
  if h : s.sp.val < 16 then
    k (s.setStack (s.stack.set s.sp.val a) ⟨s.sp.val + 1, by omega⟩)
  else raise .stackOverflow

/-- pop(), then go on with the popped address: `StackUnderflow` on an empty stack (10_state.md R30).
The slot keeps its value (40_step_and_control.md R90). -/
def popThen (s : State) (k : Word → State → Result) : Result :=
  if h : 0 < s.sp.val then
    k (s.stack[s.sp.val - 1]'(by omega)) (s.setStack s.stack ⟨s.sp.val - 1, by omega⟩)
  else raise .stackUnderflow

/-! ## Free draws -/

/-- RandomByte(): the next byte the random source has lined up, or a free value
(41_alu.md R117, D9; log 7). -/
def State.drawByte (s : State) : Byte × State :=
  match s.rand with
  | r :: rest => (r, s.setRand rest)
  | [] => (Config.freeByte s.draws, s.countDraw)

/-- Pressed(k): the key's level, or a free value for a key number above 15
(44_input_and_timers.md R140, D7; log 9). -/
def State.drawPressed (s : State) (k : Byte) : Bool × State :=
  if h : k.toNat < 16 then (s.keys[k.toNat], s)
  else (Config.freeKeyLevel s.draws, s.countDraw)

/-- The pressed keys, lowest first. -/
def State.pressedKeys (s : State) : List KeyIx :=
  (List.finRange 16).filter (fun k => s.keys[k.val])

/-- choose(P) over the pressed keys, `none` when no key is pressed; with several pressed, which one
is a free value (44_input_and_timers.md R143, R144, D8; log 10). -/
def State.drawKey (s : State) : Option (KeyIx × State) :=
  match s.pressedKeys with
  | [] => none
  | [k] => some (k, s)
  | k :: ks =>
    some ((k :: ks).getD (Config.freeKeyChoice s.draws % (k :: ks).length) k,
      s.countDraw)

/-! ## Fetch -/

/-- readWord(PC): the word at PC and PC + 1, big-endian (20_memory.md R50, 40_step_and_control.md
R85). -/
def State.wordAtPc (s : State) : Word :=
  wordOfBytes (s.byteAt s.pc.toNat) (s.byteAt (s.pc.toNat + 1))

/-- Fetch and decode the instruction at PC: `AddressOutOfRange` first, then `UnknownInstruction`
(40_step_and_control.md R84, R85; 60_exceptions.md R155). -/
def State.fetch (s : State) : Except Fault Instr :=
  match lowestOutOfRange (addressesFrom s.pc.toNat 2) with
  | some a => .error (.addressOutOfRange a)
  | none =>
    match decodeWord s.wordAtPc with
    | .ok i => .ok i
    | .error _ => .error (.unknownInstruction s.wordAtPc)

/-- Store a word's two bytes where the next fetch reads them, if there is room for a word there
(log 24). -/
def State.placeAtPc (s : State) (w : Word) : State :=
  if s.pc.toNat + 1 ≤ Config.maxAddr then
    s.setMem (Memory.writeBytes s.mem s.pc.toNat (bytesOfWord w))
  else s

end Sys2Proof.Machine
end

