-- ==== Sys2Proof/Machine/Flags.lean ====
section
/-!
DEFINITION. The values instructions write into VF as a flag (spec/10_state.md R24), and the order of
the flag and the result (spec/41_alu.md R103).
-/

namespace Sys2Proof.Machine

open Sys2Proof

/-- b2v: 1 for true, 0 for false (00_scope.md R12). -/
def b2v (c : Bool) : Byte := if c then 1 else 0

/-- 8xy4: carry out of bit 7, 1 if the exact sum is above 255 (41_alu.md R110). -/
def carryFlag (a b : Byte) : Byte := b2v (decide (255 < a.toNat + b.toNat))

/-- 8xy5 and 8xy7: 1 when `a - b` needs no borrow, that is a >= b (41_alu.md R111, R112). -/
def noBorrowFlag (a b : Byte) : Byte := b2v (decide (b.toNat ≤ a.toNat))

/-- 8xy6: the bit a right shift drops, bit 0 (41_alu.md R113). -/
def shiftRightFlag (b : Byte) : Byte := b2v (b.getLsbD 0)

/-- 8xyE: the bit a left shift drops, bit 7 (41_alu.md R114). -/
def shiftLeftFlag (b : Byte) : Byte := b2v (b.getLsbD 7)

/-- Dxyn: 1 if the draw collided (43_display.md R138, D6; log 13). -/
def collisionFlag (c : Bool) : Byte := b2v c

/-- Write a flag computed from V[x] and V[y] to VF, then a result to V[x]. What the result reads is
VF_ALIAS: the registers after the flag write (`sequential`) or before it (`snapshot`)
(41_alu.md R103, D2; log 2). -/
def flagThenResult (s : State) (x y : RegIx) (flag result : Byte → Byte → Byte) : State :=
  let flagged := s.setV vf (flag (s.getV x) (s.getV y))
  match s.params.vfAlias with
  | .sequential => flagged.setV x (result (flagged.getV x) (flagged.getV y))
  | .snapshot => flagged.setV x (result (s.getV x) (s.getV y))

end Sys2Proof.Machine
end

