-- ==== Sys2Proof/Machine/Operands.lean ====
section
/-!
DEFINITION. Operand forms: immediates, register blocks and memory operands
(spec/30_encoding.md R70, R71; spec/42_index_and_memory.md R118).
-/

namespace Sys2Proof.Machine

open Sys2Proof

/-- zext_16(nnn) (30_encoding.md R71). -/
def addrOperand (nnn : BitVec 12) : Word := nnn.setWidth 16

/-- An 8-bit register value widened to 16 bits with zeros (00_scope.md R11). -/
def byteOperand (b : Byte) : Word := b.setWidth 16

/-- The address in I, the base of every memory operand (42_index_and_memory.md R118). -/
def State.base (s : State) : Nat := s.index.toNat

/-- V[0] to V[x] in ascending order, x + 1 registers (30_encoding.md R70). -/
def State.regBlock (s : State) (x : RegIx) : List Byte := s.v.toList.take (x.val + 1)

/-- Load bytes into the registers from V[k] on, in ascending order; bytes beyond V[15] have no
register. -/
def loadRegs : Vector Byte 16 → Nat → List Byte → Vector Byte 16
  | v, _, [] => v
  | v, k, b :: bs => loadRegs (v.setIfInBounds k b) (k + 1) bs

/-- V[0..] <- bytes. -/
def State.setRegBlock (s : State) (bytes : List Byte) : State :=
  { s with v := loadRegs s.v 0 bytes }

/-- I <- (I + x + 1) mod 65536 (42_index_and_memory.md R127). -/
def State.bumpIndex (s : State) (x : RegIx) : State :=
  s.setIndex (s.index + BitVec.ofNat 16 (x.val + 1))

/-- The hundreds, tens and ones digits of a byte (42_index_and_memory.md R124). -/
def decimalDigits (b : Byte) : List Byte :=
  [BitVec.ofNat 8 (b.toNat / 100), BitVec.ofNat 8 (b.toNat / 10 % 10), BitVec.ofNat 8 (b.toNat % 10)]

end Sys2Proof.Machine
end

