-- ==== Sys2Proof/Machine/Alu.lean ====
section
/-!
DEFINITION. Register loads, arithmetic, logic, shifts and random: 6xkk, 7xkk, 8xy0 to 8xy7, 8xyE,
Cxkk (spec/41_alu.md).
-/

namespace Sys2Proof.Machine

open Sys2Proof

/-- 6xkk: V[x] <- kk (R104). -/
def execLdK (x : RegIx) (kk : Byte) (s : State) : Result := .next (s.setV x kk).advance

/-- 7xkk: V[x] <- (V[x] + kk) mod 256, no flag (R105; 90_conflicts.md C5). -/
def execAddK (x : RegIx) (kk : Byte) (s : State) : Result :=
  .next (s.setV x (s.getV x + kk)).advance

/-- 8xy0: V[x] <- V[y] (R106). -/
def execLdR (x y : RegIx) (s : State) : Result := .next (s.setV x (s.getV y)).advance

/-- 8xy1: V[x] <- V[x] OR V[y], VF kept (R107). -/
def execOrR (x y : RegIx) (s : State) : Result :=
  .next (s.setV x (s.getV x ||| s.getV y)).advance

/-- 8xy2: V[x] <- V[x] AND V[y], VF kept (R108). -/
def execAndR (x y : RegIx) (s : State) : Result :=
  .next (s.setV x (s.getV x &&& s.getV y)).advance

/-- 8xy3: V[x] <- V[x] XOR V[y], VF kept (R109). -/
def execXorR (x y : RegIx) (s : State) : Result :=
  .next (s.setV x (s.getV x ^^^ s.getV y)).advance

/-- 8xy4: the sum is formed first, then VF <- carry, then V[x] <- sum mod 256, so VF_ALIAS does not
matter here (R110, R103). -/
def execAddR (x y : RegIx) (s : State) : Result :=
  .next ((s.setV vf (carryFlag (s.getV x) (s.getV y))).setV x (s.getV x + s.getV y)).advance

/-- 8xy5: VF <- no borrow, V[x] <- (V[x] - V[y]) mod 256 (R111). -/
def execSub (x y : RegIx) (s : State) : Result :=
  .next (flagThenResult s x y noBorrowFlag fun a b => a - b).advance

/-- 8xy6: VF <- bit 0 of V[y], V[x] <- V[y] >> 1 (R113, R115). -/
def execShr (x y : RegIx) (s : State) : Result :=
  .next (flagThenResult s x y (fun _ b => shiftRightFlag b) fun _ b => b >>> 1).advance

/-- 8xy7: VF <- no borrow, V[x] <- (V[y] - V[x]) mod 256 (R112). -/
def execSubn (x y : RegIx) (s : State) : Result :=
  .next (flagThenResult s x y (fun a b => noBorrowFlag b a) fun a b => b - a).advance

/-- 8xyE: VF <- bit 7 of V[y], V[x] <- (V[y] << 1) mod 256 (R114, R115). -/
def execShl (x y : RegIx) (s : State) : Result :=
  .next (flagThenResult s x y (fun _ b => shiftLeftFlag b) fun _ b => b <<< 1).advance

/-- Cxkk: V[x] <- RandomByte() AND kk (R116, R117; log 7). -/
def execRnd (x : RegIx) (kk : Byte) (s : State) : Result :=
  .next (s.drawByte.2.setV x (s.drawByte.1 &&& kk)).advance

end Sys2Proof.Machine
end

