-- ==== Sys2Proof/Machine/Control.lean ====
section
/-!
DEFINITION. Control transfer: 00EE, 1nnn, 2nnn, 3xkk, 4xkk, 5xy0, 9xy0, Bnnn
(spec/40_step_and_control.md).
-/

namespace Sys2Proof.Machine

open Sys2Proof

/-- 00EE: return to the popped address, which the call pushed (R88, R90; 90_conflicts.md C1). -/
def execRet (s : State) : Result := popThen s fun a t => .next (t.setPc a)

/-- 1nnn: jump (R91). -/
def execJp (nnn : BitVec 12) (s : State) : Result := .next (s.setPc (addrOperand nnn))

/-- 2nnn: push PC + 2, then jump (R88, R93). -/
def execCall (nnn : BitVec 12) (s : State) : Result :=
  pushThen s (s.pc + 2) fun t => .next (t.setPc (addrOperand nnn))

/-- 3xkk: skip if V[x] = kk (R94). -/
def execSeK (x : RegIx) (kk : Byte) (s : State) : Result :=
  .next (s.skipIf (decide (s.getV x = kk)))

/-- 4xkk: skip if V[x] is not kk (R95). -/
def execSneK (x : RegIx) (kk : Byte) (s : State) : Result :=
  .next (s.skipIf (decide (s.getV x ≠ kk)))

/-- 5xy0: skip if V[x] = V[y] (R96). -/
def execSeR (x y : RegIx) (s : State) : Result :=
  .next (s.skipIf (decide (s.getV x = s.getV y)))

/-- 9xy0: skip if V[x] is not V[y] (R97). -/
def execSneR (x y : RegIx) (s : State) : Result :=
  .next (s.skipIf (decide (s.getV x ≠ s.getV y)))

/-- Bnnn: jump to nnn + V0 (R98). -/
def execJpV0 (nnn : BitVec 12) (s : State) : Result :=
  .next (s.setPc (addrOperand nnn + byteOperand (s.getV 0)))

end Sys2Proof.Machine
end

