-- ==== Sys2Proof/Machine/Display.lean ====
section
/-!
DEFINITION. The display and the sprite engine, and the instructions 00E0 and Dxyn
(spec/43_display.md).
-/

namespace Sys2Proof.Machine

open Sys2Proof

/-- getPixel: both coordinates wrap (R128). -/
def Display.getPixel (d : Display) (px py : Nat) : Bool :=
  (d[py % 32]'(Nat.mod_lt py (by decide)))[px % 64]'(Nat.mod_lt px (by decide))

/-- setPixel at valid coordinates (R129). -/
def Display.setPixel (d : Display) (px : Fin 64) (py : Fin 32) (b : Bool) : Display :=
  d.set py.val (d[py.val].set px.val b)

/-- clear: every cell 0 (R130). -/
def Display.clear : Display := Vector.replicate 32 (Vector.replicate 64 false)

/-- One pixel of drawSprite: column `col` of the sprite row `row`, whose byte is `byte`. The bit is
XORed into the wrapped cell, and a 1 bit over a 1 cell raises the collision flag (R131, R132). -/
def drawPixel (sx sy row : Nat) (byte : Byte) (acc : Display × Bool) (col : Nat) : Display × Bool :=
  let bit := byte.getLsbD (7 - col)
  let old := acc.1.getPixel (sx + col) (sy + row)
  (acc.1.setPixel ⟨(sx + col) % 64, Nat.mod_lt _ (by decide)⟩
      ⟨(sy + row) % 32, Nat.mod_lt _ (by decide)⟩ (old ^^ bit),
    acc.2 || (old && bit))

/-- One row of drawSprite: the 8 columns, most significant bit first (R131). -/
def drawRow (sx sy row : Nat) (byte : Byte) (acc : Display × Bool) : Display × Bool :=
  (List.range 8).foldl (drawPixel sx sy row byte) acc

/-- The rows of drawSprite from row number `row` on (R131). -/
def drawRows (sx sy : Nat) : Nat → List Byte → Display × Bool → Display × Bool
  | _, [], acc => acc
  | row, byte :: bytes, acc => drawRows sx sy (row + 1) bytes (drawRow sx sy row byte acc)

/-- drawSprite: the display after the draw, and the collision flag (R131). -/
def drawSprite (sx sy : Nat) (bytes : List Byte) (d : Display) : Display × Bool :=
  drawRows sx sy 0 bytes (d, false)

/-- 00E0: clear the display (R137). -/
def execCls (s : State) : Result := .next (s.setDisp Display.clear).advance

/-- Dxyn: draw the `n` bytes at I at (V[x], V[y]); VF <- collision. The coordinates are read before
VF is written (R138; D5, D6; log 13). -/
def execDrw (x y : RegIx) (n : Nat) (s : State) : Result :=
  loadThen s s.base n fun bytes =>
    let drawn := drawSprite (s.getV x).toNat (s.getV y).toNat bytes s.disp
    .next ((s.setDisp drawn.1).setV vf (collisionFlag drawn.2)).advance

end Sys2Proof.Machine
end

