-- ==== Sys2Proof/Machine/IndexMemory.lean ====
section
/-!
DEFINITION. Index register and memory transfer: Annn, Fx1E, Fx29, Fx33, Fx55, Fx65
(spec/42_index_and_memory.md).
-/

namespace Sys2Proof.Machine

open Sys2Proof

/-- Annn: I <- zext_16(nnn) (R121). -/
def execLdI (nnn : BitVec 12) (s : State) : Result := .next (s.setIndex (addrOperand nnn)).advance

/-- Fx1E: I <- (I + V[x]) mod 65536, no flag (R122). -/
def execAddI (x : RegIx) (s : State) : Result :=
  .next (s.setIndex (s.index + byteOperand (s.getV x))).advance

/-- Fx29: I <- 5 * V[x], the full byte (R123). -/
def execLdF (x : RegIx) (s : State) : Result :=
  .next (s.setIndex (5 * byteOperand (s.getV x))).advance

/-- Fx33: the decimal digits of V[x] to MEM[I], MEM[I+1], MEM[I+2] (R124). -/
def execLdB (x : RegIx) (s : State) : Result :=
  storeThen s s.base (decimalDigits (s.getV x)) fun t => .next t.advance

/-- Fx55: V[0] to V[x] to MEM[I] on, then I <- I + x + 1 (R125, R127). -/
def execLdMI (x : RegIx) (s : State) : Result :=
  storeThen s s.base (s.regBlock x) fun t => .next (t.bumpIndex x).advance

/-- Fx65: V[0] to V[x] from MEM[I] on, then I <- I + x + 1 (R126, R127). -/
def execLdVMI (x : RegIx) (s : State) : Result :=
  loadThen s s.base (x.val + 1) fun bytes => .next ((s.setRegBlock bytes).bumpIndex x).advance

end Sys2Proof.Machine
end

