-- ==== Sys2Proof/Machine/Input.lean ====
section
/-!
DEFINITION. Key input and timer instructions: Ex9E, ExA1, Fx0A, Fx07, Fx15, Fx18
(spec/44_input_and_timers.md).
-/

namespace Sys2Proof.Machine

open Sys2Proof

/-- Ex9E: skip if Pressed(V[x]) (R140, R141). -/
def execSkp (x : RegIx) (s : State) : Result :=
  .next ((s.drawPressed (s.getV x)).2.skipIf (s.drawPressed (s.getV x)).1)

/-- ExA1: skip if not Pressed(V[x]) (R140, R142). -/
def execSknp (x : RegIx) (s : State) : Result :=
  .next ((s.drawPressed (s.getV x)).2.skipIf (!(s.drawPressed (s.getV x)).1))

/-- Fx07: V[x] <- DT (R145). -/
def execLdVDT (x : RegIx) (s : State) : Result := .next (s.setV x s.dt).advance

/-- Fx0A: with no key pressed nothing changes, PC included; else V[x] <- a pressed key
(R143, R144). -/
def execLdVK (x : RegIx) (s : State) : Result :=
  match s.drawKey with
  | none => .next s
  | some (k, t) => .next (t.setV x (BitVec.ofNat 8 k.val)).advance

/-- Fx15: DT <- V[x] (R146). -/
def execLdDTV (x : RegIx) (s : State) : Result := .next (s.setDt (s.getV x)).advance

/-- Fx18: ST <- V[x] (R147). -/
def execLdSTV (x : RegIx) (s : State) : Result := .next (s.setSt (s.getV x)).advance

end Sys2Proof.Machine
end

