-- ==== Sys2Proof/Machine/Step.lean ====
section
/-!
DEFINITION. One step of the block (spec/40_step_and_control.md R84), and where the next
instruction's word is placed for it.
-/

namespace Sys2Proof.Machine

open Sys2Proof

/-- `step()` (R84): a halted block answers its recorded fault and does nothing
(10_state.md R37, D11; log 1, log 26); else fetch, decode, and execute one instruction. -/
def step (s : State) : Host.Outcome State Fault Refusal :=
  match s.halt with
  | some f => raise f
  | none =>
    match s.fetch with
    | .error f => raise f
    | .ok i => exec i s

/-- The state with a table row's word stored where `step` fetches its next instruction (log 24). -/
def State.withFetchWord (s : State) (nbits w : Nat) : State := s.placeAtPc (tableWord nbits w)

end Sys2Proof.Machine
end

