-- ==== Sys2Proof/Machine/HostActions.lean ====
section
/-!
DEFINITION. The block's interface: the host's transactions, what each replies, and runs of them
(spec/10_state.md R39 to R43; spec/60_exceptions.md R162 to R164, R170; spec/70_reset_and_hazards.md).
-/

namespace Sys2Proof.Machine

open Sys2Proof

/-- Memory after a reset that installs `font` (70_reset_and_hazards.md R171). -/
def resetMemory (font : Config.FontData) : Memory :=
  Memory.writeBytes [] 0 ((List.range Config.fontEnd).map (resetByteOf font))

/-- `reset()`: every piece of the block's state takes its reset value, from any state, halted or not
(70_reset_and_hazards.md R171, R172). The inputs, the open parameters and the model's draw counter
are not the block's state and stay (log 19). -/
def State.resetBlock (s : State) : State :=
  { State.reset with
    mem := resetMemory s.params.font, keys := s.keys, rand := s.rand, draws := s.draws,
    params := s.params }

/-- `loadProgram(bytes)`: copy the bytes to 0x200 on and change nothing else; a program above 3584
bytes is refused (70_reset_and_hazards.md R175, R176, D16; log 18). -/
def State.loadProgram (s : State) (bytes : List Byte) : Result :=
  if bytes.length ≤ Config.progMax then
    .next (s.setMem (Memory.writeBytes s.mem Config.progBase bytes))
  else .refused (.programTooLong bytes.length)

/-- A countdown clamped at zero (60_exceptions.md R162, R163). -/
def countDown (b : Byte) : Byte := if b = 0 then 0 else b - 1

/-- `tickDelay()` (60_exceptions.md R162). -/
def State.tickDelay (s : State) : State := s.setDt (countDown s.dt)

/-- `tickSound()` (60_exceptions.md R163). -/
def State.tickSound (s : State) : State := s.setSt (countDown s.st)

/-- The 60 Hz tick: both decrements between two steps (60_exceptions.md R164, D12; log 20). -/
def State.tick60 (s : State) : State := s.tickDelay.tickSound

/-- The input collaborator's key vector (44_input_and_timers.md R139; log 6). -/
def State.setKeys (s : State) (keys : Vector Bool 16) : State := { s with keys := keys }

/-- The tone is on while ST is not zero (10_state.md R43, 44_input_and_timers.md R147). -/
def State.toneOn (s : State) : Bool := decide (s.st ≠ 0)

/-- What the host may do to the block, each atomic and between two steps (10_state.md R40, R43;
20_memory.md R61; log 20, log 23). -/
inductive Transaction where
  /-- `step()`. -/
  | step
  /-- `reset()`. -/
  | reset
  /-- `loadProgram(bytes)`. -/
  | loadProgram (bytes : List Byte)
  /-- `tickDelay()`. -/
  | tickDelay
  /-- `tickSound()`. -/
  | tickSound
  /-- The input collaborator's key vector changes. -/
  | setKeys (keys : Vector Bool 16)
  /-- The random source lines up a byte. -/
  | supplyByte (r : Byte)
  /-- The renderer reads `getPixel(px, py)`. -/
  | getPixel (px py : Nat)
  /-- The audio collaborator reads ST. -/
  | readST
  /-- The host reads DT. -/
  | readDT
deriving DecidableEq, Repr

/-- What a transaction returns (10_state.md R41, R43). -/
inductive Reply where
  /-- `Ok`, or nothing to return. -/
  | ok
  /-- `Fault(kind, info)`. -/
  | fault (f : Fault)
  /-- The model gives the action no meaning (00_scope.md R18). -/
  | refused (r : Refusal)
  /-- A display cell. -/
  | pixel (b : Bool)
  /-- A timer's count. -/
  | count (b : Byte)
deriving DecidableEq, Repr

/-- The state an outcome leaves and what the host is told: a fault leaves the state before it with
HALT set (60_exceptions.md R150), a refusal leaves the state before it (00_scope.md R18). -/
def commit (s : State) (r : Result) : State × Reply :=
  match r with
  | .next t => (t, .ok)
  | .fault f => (s.recordFault f, .fault f)
  | .refused r => (s, .refused r)

/-- One transaction: the state after it and its reply. -/
def transact (a : Transaction) (s : State) : State × Reply :=
  match a with
  | .step => commit s (step s)
  | .reset => (s.resetBlock, .ok)
  | .loadProgram bytes => commit s (s.loadProgram bytes)
  | .tickDelay => (s.tickDelay, .ok)
  | .tickSound => (s.tickSound, .ok)
  | .setKeys keys => (s.setKeys keys, .ok)
  | .supplyByte r => (s.setRand (s.rand ++ [r]), .ok)
  | .getPixel px py => (s, .pixel (s.disp.getPixel px py))
  | .readST => (s, .count s.st)
  | .readDT => (s, .count s.dt)

/-- A run: the state after a finite list of transactions (60_exceptions.md R170, D25, D26). -/
def runTransactions : List Transaction → State → State
  | [], s => s
  | a :: as, s => runTransactions as (transact a s).1

end Sys2Proof.Machine
end

