-- ==== Sys2Proof/Safety.lean ====
section
/-!
DEFINITION. What claims call a good state and a safe step.
-/

namespace Sys2Proof.Machine

open Sys2Proof

/-- The highest value any rule writes to PC (spec/40_step_and_control.md R101). -/
abbrev pcMax : Nat := 0x10FE

/-- The highest return address a call pushes (spec/40_step_and_control.md R93). -/
abbrev returnMax : Nat := 0x1000

/-- Every address on the stack is one a call can have pushed. -/
def State.returnsBounded (s : State) : Prop :=
  ∀ k : Fin 16, k.val < s.sp.val → s.stack[k.val].toNat ≤ returnMax

/-- The states the rules lead to: memory in its canonical form, PC within the range of
40_step_and_control.md R101, and every address on the stack one a call can have pushed. -/
structure State.Inv (s : State) : Prop where
  memory : Memory.wf s.mem = true
  pcRange : s.pc.toNat ≤ pcMax
  returns : s.returnsBounded

/-- A step that neither faults nor is refused. -/
def State.stepsSafely (s : State) : Prop := ∃ t, step s = .next t

/-- A run from a state in which every one of the first `k` steps, with no host action between them,
completes. -/
def State.runsSafely : Nat → State → Prop
  | 0, _ => True
  | k + 1, s => ∃ t, step s = .next t ∧ t.runsSafely k

end Sys2Proof.Machine
end

