-- ==== Sys2Proof/Certificates/Slice0/Obligations.lean ====
section
/-!
DEFINITION. The statements for the provers. `Claims.Keeps may s t` is the frame: from `s` to `t`
nothing changed but PC and the parts listed in `may`.
-/

namespace Sys2Proof.Claims

open Sys2Proof Sys2Proof.Machine

/-- The parts of the state an instruction can change besides PC. -/
inductive Part where
  | reg (r : RegIx)
  | index
  | slot (k : Fin 16)
  | sp
  | delay
  | sound
  | display
  | byte (a : Nat)
  | rand
  | draws
deriving DecidableEq, Repr

/-- The frame: everything but PC and the parts in `may` is as before. HALT, the key vector and the
open parameters are never in `may`: no instruction writes them. -/
structure Keeps (may : List Part) (s t : State) : Prop where
  regs : ∀ r, Part.reg r ∉ may → t.getV r = s.getV r
  index : Part.index ∉ may → t.index = s.index
  slots : ∀ k, Part.slot k ∉ may → t.stack[k.val] = s.stack[k.val]
  sp : Part.sp ∉ may → t.sp = s.sp
  delay : Part.delay ∉ may → t.dt = s.dt
  sound : Part.sound ∉ may → t.st = s.st
  display : Part.display ∉ may → t.disp = s.disp
  bytes : ∀ a, Part.byte a ∉ may → t.byteAt a = s.byteAt a
  rand : Part.rand ∉ may → t.rand = s.rand
  draws : Part.draws ∉ may → t.draws = s.draws
  halt : t.halt = s.halt
  keys : t.keys = s.keys
  params : t.params = s.params

/-- The bytes of a block store. -/
def blockBytes (base count : Nat) : List Part := (addressesFrom base count).map Part.byte

/-- V[0] to V[x]. -/
def blockRegs (x : RegIx) : List Part :=
  ((List.finRange 16).filter (fun r => decide (r ≤ x))).map Part.reg

/-- The block from `base` stays within 0x000 to 0xFFF. -/
abbrev inRange (base count : Nat) : Prop := base + count ≤ 0x1000

/-- A store that starts at `base` is not in the font region, or FONT_WRITE lets it through. -/
abbrev storeAllowed (s : State) (base : Nat) : Prop := 0x50 ≤ base ∨ s.params.fontWrite = .store

/-- The stack slot a call stores to, STACK[SP], if there is one. -/
def callSlot (s : State) : List Part :=
  if h : s.sp.val < 16 then [.slot ⟨s.sp.val, h⟩] else []

/-- What a random draw uses up: the byte lined up where there is one, else the model's draw counter
(41_alu.md R117; log 7, log 8). -/
def drawParts (s : State) : List Part := if s.rand = [] then [.draws] else [.rand]

/-- The writes column of 10_state.md R23, PC left out; for Fx33 and Fx55 the bytes are those the
meanings store to, from the address in I. -/
def tableWrites (i : Instr) (s : State) : List Part :=
  match i with
  | .cls => [.display]
  | .ret => [.sp]
  | .call _ => .sp :: callSlot s
  | .jp _ | .seK _ _ | .sneK _ _ | .seR _ _ | .sneR _ _ | .jpV0 _ => []
  | .ldK x _ | .addK x _ | .ldR x _ | .orR x _ | .andR x _ | .xorR x _ | .ldVDT x => [.reg x]
  | .addR x _ | .sub x _ | .shr x _ | .subn x _ | .shl x _ => [.reg vf, .reg x]
  | .ldI _ | .addI _ | .ldF _ => [.index]
  | .rnd x _ => .reg x :: drawParts s
  | .drw _ _ _ => [.display, .reg vf]
  | .skp x | .sknp x => if 15 < (s.getV x).toNat then [.draws] else []
  | .ldVK x => if ∃ k : KeyIx, s.keys[k.val] = true then [.reg x, .draws] else []
  | .ldDTV _ => [.delay]
  | .ldSTV _ => [.sound]
  | .ldB _ => blockBytes s.base 3
  | .ldMI x => .index :: blockBytes s.base (x.val + 1)
  | .ldVMI x => .index :: blockRegs x

/-- How many bytes from the address in I an instruction accesses. -/
def accessCount (i : Instr) : Nat :=
  match i with
  | .drw _ _ n => n
  | .ldB _ => 3
  | .ldMI x | .ldVMI x => x.val + 1
  | _ => 0

/-- The instructions that store to memory. -/
def stores (i : Instr) : Bool :=
  match i with
  | .ldB _ | .ldMI _ => true
  | _ => false

/-- The instructions whose rule sets PC (40_step_and_control.md R86). -/
def setsPc (i : Instr) : Bool :=
  match i with
  | .ret | .jp _ | .call _ | .jpV0 _ | .seK _ _ | .sneK _ _ | .seR _ _ | .sneR _ _ | .skp _
  | .sknp _ | .ldVK _ => true
  | _ => false

/-- The six conditional skips. -/
def isSkip (i : Instr) : Bool :=
  match i with
  | .seK _ _ | .sneK _ _ | .seR _ _ | .sneR _ _ | .skp _ | .sknp _ => true
  | _ => false

/-- The instructions that read an input (10_state.md R45). -/
def readsInput (i : Instr) : Bool :=
  match i with
  | .skp _ | .sknp _ | .ldVK _ | .rnd _ _ => true
  | _ => false

/-- The instructions that write VF as a flag (10_state.md R24). -/
def writesFlag (i : Instr) : Bool :=
  match i with
  | .addR _ _ | .sub _ _ | .shr _ _ | .subn _ _ | .shl _ _ | .drw _ _ _ => true
  | _ => false

/-- The instructions whose destination register is VF. -/
def destIsVf (i : Instr) : Bool :=
  match i with
  | .ldK x _ | .addK x _ | .ldR x _ | .orR x _ | .andR x _ | .xorR x _ | .addR x _ | .sub x _
  | .shr x _ | .subn x _ | .shl x _ | .rnd x _ | .ldVDT x | .ldVK x | .ldVMI x => decide (x = vf)
  | _ => false

/-- An outcome with its next state changed. -/
def mapNext (f : State → State) (r : Result) : Result :=
  match r with
  | .next t => .next (f t)
  | .fault e => .fault e
  | .refused e => .refused e

/-- Two states that differ at most in the stack slots at or above SP. -/
structure SameLive (s t : State) : Prop where
  rest : t = { s with stack := t.stack }
  live : ∀ k : Fin 16, k.val < s.sp.val → t.stack[k.val] = s.stack[k.val]

/-- Two outcomes that differ at most in dead stack slots. -/
def SameLiveOutcome (r r' : Result) : Prop :=
  match r, r' with
  | .next s, .next t => SameLive s t
  | .fault e, .fault e' => e = e'
  | .refused e, .refused e' => e = e'
  | _, _ => False

/-- The sprite bit of row `row` and column `col`, most significant bit leftmost. -/
def spriteBit (bytes : List Byte) (row col : Nat) : Bool := (bytes.getD row 0).getLsbD (7 - col)

/-- A cell (by any coordinates of it) lies under row `row` and column `col` of a sprite at (sx, sy). -/
abbrev under (sx sy row col px py : Nat) : Prop :=
  px % 64 = (sx + col) % 64 ∧ py % 32 = (sy + row) % 32

end Sys2Proof.Claims

open Sys2Proof Sys2Proof.Machine Sys2Proof.Claims

/-! ## Encoding -/

/-- Decoding the bytes of any encodable instruction, with any bytes after them, gives it back with
those bytes left over (30_encoding.md, sections 1 to 3). -/
def Obligations.DecodeOfEncodeIsInstruction : Prop :=
  ∀ (i : Instr) (rest : List Byte), i.wellFormed = true → decode (encode i ++ rest) = .ok (i, rest)

/-- Every word that decodes is the encoding of what it decodes to, so each word has one meaning
(30_encoding.md, section 3; that rows 00E0, 00EE, 5xy0 and 9xy0 match only as written is
92_eei_decisions.md D3, log 14). -/
def Obligations.EncodeOfDecodeIsWord : Prop :=
  ∀ (w : Word) (i : Instr), decodeWord w = .ok i → encodeWord i = w ∧ i.wellFormed = true

/-- A word is unknown exactly when it matches no row of spec/opcode_table.json (30_encoding.md R78;
that rows 00E0, 00EE, 5xy0 and 9xy0 match only as written is 92_eei_decisions.md D3, log 14). -/
def Obligations.UnknownExactlyWhenNoRowMatches : Prop :=
  ∀ w : Word, decodeWord w = .error (.unknown w) ↔
    ∀ i : Instr, w &&& (opcodeRow i).mask ≠ (opcodeRow i).pattern

/-- Words written out from the spec's encodings, at least one for each of the 16 opcode families,
decode to what they stand for (30_encoding.md, section 3); 0x5121 and 0x01E0 are unknown words, which
is 92_eei_decisions.md D3, log 14. -/
def Obligations.SampleWordsDecode : Prop :=
  decodeWord 0x00E0 = .ok .cls ∧ decodeWord 0x00EE = .ok .ret ∧
  decodeWord 0x1ABC = .ok (.jp 0xABC) ∧ decodeWord 0x2301 = .ok (.call 0x301) ∧
  decodeWord 0x3312 = .ok (.seK 3 0x12) ∧ decodeWord 0x4313 = .ok (.sneK 3 0x13) ∧
  decodeWord 0x5120 = .ok (.seR 1 2) ∧ decodeWord 0x6AFE = .ok (.ldK 10 0xFE) ∧
  decodeWord 0x7F01 = .ok (.addK 15 0x01) ∧ decodeWord 0x8F17 = .ok (.subn 15 1) ∧
  decodeWord 0x9120 = .ok (.sneR 1 2) ∧ decodeWord 0xA2F0 = .ok (.ldI 0x2F0) ∧
  decodeWord 0xBFFE = .ok (.jpV0 0xFFE) ∧
  decodeWord 0xC3F0 = .ok (.rnd 3 0xF0) ∧ decodeWord 0xD012 = .ok (.drw 0 1 2) ∧
  decodeWord 0xE59E = .ok (.skp 5) ∧ decodeWord 0xF633 = .ok (.ldB 6) ∧
  decodeWord 0x5121 = .error (.unknown 0x5121) ∧ decodeWord 0x01E0 = .error (.unknown 0x01E0)

/-! ## The step -/

/-- When the block is not halted and the big-endian word at PC decodes to an instruction, a step is
that instruction's meaning at that state; this machine's step adds nothing around it (every PC
update is the instruction's own) (40_step_and_control.md, section 1, R84 and R85). -/
def Obligations.StepRunsDecodedInstruction : Prop :=
  ∀ (s : State) (i : Instr), s.halt = none → s.pc.toNat ≤ 0xFFE →
    decodeWord (BitVec.ofNat 16
      ((s.byteAt s.pc.toNat).toNat * 256 + (s.byteAt (s.pc.toNat + 1)).toNat)) = .ok i →
    step s = exec i s

/-- From PC = 0xFFF up the fetch faults whatever the bytes are; the reported address is the lowest
one out of range (60_exceptions.md, R152; the info is 92_eei_decisions.md D10, log 17). -/
def Obligations.FetchAboveMemoryFaults : Prop :=
  ∀ s : State, s.halt = none → 0xFFF ≤ s.pc.toNat →
    step s = .fault (.addressOutOfRange (max s.pc.toNat 0x1000))

/-- A fetched word that matches no row faults with that word (60_exceptions.md R151; the info is
92_eei_decisions.md D10, log 17; that rows 00E0, 00EE, 5xy0 and 9xy0 match only as written, so that a
word such as 0x5121 or 0x01E0 faults, is D3, log 14). -/
def Obligations.UnknownWordFaults : Prop :=
  ∀ s : State, s.halt = none → s.pc.toNat ≤ 0xFFE →
    (∀ i : Instr, s.wordAtPc &&& (opcodeRow i).mask ≠ (opcodeRow i).pattern) →
    step s = .fault (.unknownInstruction s.wordAtPc)

/-- A failing `step()` leaves MEM, V, I, PC, STACK, SP, DT, ST and DISP as they were, returns the
fault and sets HALT (60_exceptions.md R150). -/
def Obligations.FailingStepChangesOnlyHalt : Prop :=
  ∀ (s : State) (f : Fault), step s = .fault f →
    ∃ t, transact .step s = (t, .fault f) ∧ t.mem = s.mem ∧ t.v = s.v ∧ t.index = s.index ∧
      t.pc = s.pc ∧ t.stack = s.stack ∧ t.sp = s.sp ∧ t.dt = s.dt ∧ t.st = s.st ∧
      t.disp = s.disp ∧ t.halt = some f

/-- Once halted, the block answers the recorded fault to every step and changes nothing, whatever
host transactions but `reset` come between; `reset` clears HALT (the spec's decision D11;
10_state.md section 11, log 1, log 26). -/
def Obligations.HaltLastsUntilReset : Prop :=
  ∀ (s : State) (f : Fault) (as : List Transaction), s.halt = some f → Transaction.reset ∉ as →
    (runTransactions as s).halt = some f ∧
    transact .step (runTransactions as s) = (runTransactions as s, .fault f) ∧
    (transact .reset (runTransactions as s)).1.halt = none

/-- Which instruction raises which fault, and when: 2nnn on a full stack, 00EE on an empty one, and
Dxyn, Fx33, Fx55 and Fx65 when a byte they access is above 0xFFF, with the lowest such address; no
other instruction faults (60_exceptions.md section 1; the info is 92_eei_decisions.md D10, log 17). -/
def Obligations.FaultsOfInstructions : Prop :=
  ∀ (i : Instr) (s : State) (f : Fault), exec i s = .fault f ↔
    (f = .stackOverflow ∧ (∃ nnn, i = .call nnn) ∧ s.sp.val = 16) ∨
    (f = .stackUnderflow ∧ i = .ret ∧ s.sp.val = 0) ∨
    (f = .addressOutOfRange (max s.base 0x1000) ∧ accessCount i ≠ 0 ∧
      0x1000 < s.base + accessCount i)

/-- The only refusal of an instruction: Fx33 or Fx55 would write a font byte and FONT_WRITE is
`refuse`; the range check comes first. A refused `step()` changes nothing and is reported as refused
(42_index_and_memory.md section 1, 00_scope.md section 4; the spec's decision D4, log 3). -/
def Obligations.RefusalsOfInstructions : Prop :=
  (∀ (i : Instr) (s : State) (r : Refusal), exec i s = .refused r ↔
    stores i = true ∧ r = .fontWrite s.base ∧ s.base < 0x50 ∧ s.params.fontWrite = .refuse) ∧
  ∀ (s : State) (r : Refusal), step s = .refused r → transact .step s = (s, .refused r)

/-! ## Whole-machine frames -/

/-- Every instruction that completes writes nothing but PC and what its row of the table of
10_state.md R23 lists, and in the model what a free draw uses up: Cxkk the random byte lined up, or
the model's draw counter where none is; Ex9E and ExA1 with a key number above 15, and Fx0A with a key
pressed, at most the draw counter (log 7, log 8). -/
def Obligations.InstructionsWriteOnlyTheirRow : Prop :=
  ∀ (i : Instr) (s t : State), exec i s = .next t → Keeps (tableWrites i s) s t

/-- PC after every instruction that completes: PC + 2 unless its rule sets PC; PC + 4 or PC + 2 for
the six skips; PC or PC + 2 for Fx0A (40_step_and_control.md R86). -/
def Obligations.DefaultPcUpdate : Prop :=
  ∀ (i : Instr) (s t : State), exec i s = .next t →
    (setsPc i = false → t.pc = s.pc + 2) ∧
    (isSkip i = true → t.pc = s.pc + 4 ∨ t.pc = s.pc + 2) ∧
    (∀ x, i = .ldVK x → t.pc = s.pc + 2 ∨
      (t.pc = s.pc ∧ ∀ k : KeyIx, s.keys[k.val] = false))

/-- VF changes only in the instructions that write it as a flag, or that have it as their
destination register (10_state.md section 3, 90_conflicts.md C5). -/
def Obligations.OnlyFlagInstructionsChangeVF : Prop :=
  ∀ (i : Instr) (s t : State), exec i s = .next t → writesFlag i = false → destIsVf i = false →
    t.getV vf = s.getV vf

/-- No instruction reads ST: changing ST before an instruction changes nothing after it but ST, and
not even ST for Fx18 (10_state.md section 7). -/
def Obligations.NoInstructionReadsSoundTimer : Prop :=
  ∀ (i : Instr) (s : State) (b : Byte),
    exec i (s.setSt b) =
      if ∃ x, i = .ldSTV x then exec i s else mapNext (fun t => t.setSt b) (exec i s)

/-- An instruction that is not Ex9E, ExA1, Fx0A or Cxkk reads no input: with another key vector and
other random bytes it does the same and leaves them alone (10_state.md section 12). -/
def Obligations.OtherInstructionsReadNoInput : Prop :=
  ∀ (i : Instr) (s : State) (keys : Vector Bool 16) (bytes : List Byte), readsInput i = false →
    exec i ((s.setKeys keys).setRand bytes) =
      mapNext (fun t => (t.setKeys keys).setRand bytes) (exec i s)

/-- The contents of stack slots at or above SP are observable by no step: from two states that
differ only there, a step gives the same fault or refusal, or next states that again differ only
there (10_state.md section 6). -/
def Obligations.DeadStackSlotsUnobservable : Prop :=
  ∀ s t : State, SameLive s t → SameLiveOutcome (step s) (step t)

/-! ## Control transfer -/

/-- 00EE (40_step_and_control.md section 2; 90_conflicts.md C1; that only the word 00EE is it is
92_eei_decisions.md D3, log 14; the stack's form is D19, log 11). -/
def Obligations.ReturnPopsAddress : Prop :=
  (∀ w : Word, decodeWord w = .ok .ret ↔ w = 0x00EE) ∧
  ∀ s : State,
    (∀ h : 0 < s.sp.val, ∃ t, exec .ret s = .next t ∧
      t.pc = s.stack[s.sp.val - 1]'(by omega) ∧ t.sp.val = s.sp.val - 1 ∧
      Keeps [.sp] s t) ∧
    (s.sp.val = 0 → exec .ret s = .fault .stackUnderflow)

/-- 1nnn, and that the step after a jump to 0xFFF faults at its fetch (R91). -/
def Obligations.JumpSetsPc : Prop :=
  ∀ (nnn : BitVec 12) (s : State), decodeWord (wordNNN 0x1 nnn) = .ok (.jp nnn) ∧
    ∃ t, exec (.jp nnn) s = .next t ∧ t.pc.toNat = nnn.toNat ∧ Keeps [] s t ∧
      (s.halt = none → nnn.toNat = 0xFFF → ∃ a, step t = .fault (.addressOutOfRange a))

/-- 2nnn (R93). -/
def Obligations.CallPushesNextAddress : Prop :=
  ∀ (nnn : BitVec 12) (s : State), decodeWord (wordNNN 0x2 nnn) = .ok (.call nnn) ∧
    (∀ h : s.sp.val < 16, ∃ t, exec (.call nnn) s = .next t ∧ t.pc.toNat = nnn.toNat ∧
      t.sp.val = s.sp.val + 1 ∧ t.stack[s.sp.val] = s.pc + 2 ∧
      Keeps [.sp, .slot ⟨s.sp.val, h⟩] s t) ∧
    (s.sp.val = 16 → exec (.call nnn) s = .fault .stackOverflow)

/-- After a call, any state that still has the call's stack returns to the address after the call,
with the stack pointer the call found (40_step_and_control.md section 2, 90_conflicts.md C1). -/
def Obligations.ReturnGoesBackAfterCall : Prop :=
  ∀ (nnn : BitVec 12) (s : State), s.sp.val < 16 →
    ∃ t, exec (.call nnn) s = .next t ∧
      ∀ u : State, u.stack = t.stack → u.sp = t.sp →
        ∃ r, exec .ret u = .next r ∧ r.pc = s.pc + 2 ∧ r.sp = s.sp

/-- 3xkk (R94). -/
def Obligations.SkipIfEqualImmediate : Prop :=
  ∀ (x : RegIx) (kk : Byte) (s : State), decodeWord (wordXKK 0x3 x kk) = .ok (.seK x kk) ∧
    ∃ t, exec (.seK x kk) s = .next t ∧
      t.pc = (if s.getV x = kk then s.pc + 4 else s.pc + 2) ∧ Keeps [] s t

/-- 4xkk (R95). -/
def Obligations.SkipIfNotEqualImmediate : Prop :=
  ∀ (x : RegIx) (kk : Byte) (s : State), decodeWord (wordXKK 0x4 x kk) = .ok (.sneK x kk) ∧
    ∃ t, exec (.sneK x kk) s = .next t ∧
      t.pc = (if s.getV x = kk then s.pc + 2 else s.pc + 4) ∧ Keeps [] s t

/-- 5xy0 and 9xy0: opposite skips on two registers (40_step_and_control.md section 3; that another
low nibble is unknown is 92_eei_decisions.md D3, log 14). -/
def Obligations.SkipOnTwoRegisters : Prop :=
  ∀ (x y : RegIx) (s : State),
    (∀ w : Word, decodeWord w = .ok (.seR x y) ↔ w = wordXYN 0x5 x y 0) ∧
    (∀ w : Word, decodeWord w = .ok (.sneR x y) ↔ w = wordXYN 0x9 x y 0) ∧
    (∀ n : BitVec 4, n ≠ 0 →
      decodeWord (wordXYN 0x5 x y n) = .error (.unknown (wordXYN 0x5 x y n)) ∧
      decodeWord (wordXYN 0x9 x y n) = .error (.unknown (wordXYN 0x9 x y n))) ∧
    (∃ t, exec (.seR x y) s = .next t ∧
      t.pc = (if s.getV x = s.getV y then s.pc + 4 else s.pc + 2) ∧ Keeps [] s t) ∧
    (∃ t, exec (.sneR x y) s = .next t ∧
      t.pc = (if s.getV x = s.getV y then s.pc + 2 else s.pc + 4) ∧ Keeps [] s t)

/-- Bnnn: the sum is exact, it never wraps, and the step after a jump above 0xFFE faults at its
fetch (R98). -/
def Obligations.ComputedJumpAddsV0 : Prop :=
  ∀ (nnn : BitVec 12) (s : State), decodeWord (wordNNN 0xB nnn) = .ok (.jpV0 nnn) ∧
    ∃ t, exec (.jpV0 nnn) s = .next t ∧ t.pc.toNat = nnn.toNat + (s.getV 0).toNat ∧
      t.pc.toNat ≤ 0x10FE ∧ Keeps [] s t ∧
      (s.halt = none → 0xFFE < t.pc.toNat → ∃ a, step t = .fault (.addressOutOfRange a))

/-! ## Registers and arithmetic -/

/-- 6xkk and 8xy0 (R104, R106). -/
def Obligations.LoadImmediateAndCopy : Prop :=
  ∀ (x y : RegIx) (kk : Byte) (s : State),
    decodeWord (wordXKK 0x6 x kk) = .ok (.ldK x kk) ∧
    decodeWord (wordXYN 0x8 x y 0x0) = .ok (.ldR x y) ∧
    (∃ t, exec (.ldK x kk) s = .next t ∧ t.getV x = kk ∧ t.pc = s.pc + 2 ∧ Keeps [.reg x] s t) ∧
    (∃ t, exec (.ldR x y) s = .next t ∧ t.getV x = s.getV y ∧ t.pc = s.pc + 2 ∧
      Keeps [.reg x] s t)

/-- 7xkk (R105). -/
def Obligations.AddImmediateWithoutFlag : Prop :=
  ∀ (x : RegIx) (kk : Byte) (s : State), decodeWord (wordXKK 0x7 x kk) = .ok (.addK x kk) ∧
    ∃ t, exec (.addK x kk) s = .next t ∧
      (t.getV x).toNat = ((s.getV x).toNat + kk.toNat) % 256 ∧ t.pc = s.pc + 2 ∧
      Keeps [.reg x] s t

/-- 8xy1, 8xy2 and 8xy3, bit by bit; no flag is written (R107, R108, R109). -/
def Obligations.LogicBitByBit : Prop :=
  ∀ (x y : RegIx) (s : State),
    decodeWord (wordXYN 0x8 x y 0x1) = .ok (.orR x y) ∧
    decodeWord (wordXYN 0x8 x y 0x2) = .ok (.andR x y) ∧
    decodeWord (wordXYN 0x8 x y 0x3) = .ok (.xorR x y) ∧
    (∃ t, exec (.orR x y) s = .next t ∧ t.pc = s.pc + 2 ∧ Keeps [.reg x] s t ∧
      ∀ k < 8, (t.getV x).getLsbD k = ((s.getV x).getLsbD k || (s.getV y).getLsbD k)) ∧
    (∃ t, exec (.andR x y) s = .next t ∧ t.pc = s.pc + 2 ∧ Keeps [.reg x] s t ∧
      ∀ k < 8, (t.getV x).getLsbD k = ((s.getV x).getLsbD k && (s.getV y).getLsbD k)) ∧
    (∃ t, exec (.xorR x y) s = .next t ∧ t.pc = s.pc + 2 ∧ Keeps [.reg x] s t ∧
      ∀ k < 8, (t.getV x).getLsbD k = ((s.getV x).getLsbD k ^^ (s.getV y).getLsbD k))

/-- 8xy4: the result, and the carry in VF unless VF is the destination (R110). -/
def Obligations.AddWithCarry : Prop :=
  ∀ (x y : RegIx) (s : State), decodeWord (wordXYN 0x8 x y 0x4) = .ok (.addR x y) ∧
    ∃ t, exec (.addR x y) s = .next t ∧ t.pc = s.pc + 2 ∧ Keeps [.reg vf, .reg x] s t ∧
      (t.getV x).toNat = ((s.getV x).toNat + (s.getV y).toNat) % 256 ∧
      (x ≠ vf → (t.getV vf).toNat = ((s.getV x).toNat + (s.getV y).toNat) / 256)

/-- 8xy5: the no-borrow flag and the difference, and the outcome under each VF_ALIAS where an
operand or the destination is VF (R111). -/
def Obligations.SubtractWithNoBorrow : Prop :=
  ∀ (x y : RegIx) (s : State), decodeWord (wordXYN 0x8 x y 0x5) = .ok (.sub x y) ∧
    ∃ t, exec (.sub x y) s = .next t ∧ t.pc = s.pc + 2 ∧ Keeps [.reg vf, .reg x] s t ∧
      ∀ f : Nat, (f = if (s.getV y).toNat ≤ (s.getV x).toNat then 1 else 0) →
        (x ≠ vf → (t.getV vf).toNat = f) ∧
        (x ≠ vf → y ≠ vf →
          (t.getV x).toNat = ((s.getV x).toNat + 256 - (s.getV y).toNat) % 256) ∧
        (x = vf → y ≠ vf → s.params.vfAlias = .sequential →
          (t.getV vf).toNat = (f + 256 - (s.getV y).toNat) % 256) ∧
        (x = vf → y ≠ vf → s.params.vfAlias = .snapshot →
          (t.getV vf).toNat = ((s.getV vf).toNat + 256 - (s.getV y).toNat) % 256) ∧
        (x ≠ vf → y = vf → s.params.vfAlias = .sequential →
          (t.getV x).toNat = ((s.getV x).toNat + 256 - f) % 256) ∧
        (x ≠ vf → y = vf → s.params.vfAlias = .snapshot →
          (t.getV x).toNat = ((s.getV x).toNat + 256 - (s.getV vf).toNat) % 256) ∧
        (x = vf → y = vf → (t.getV vf).toNat = 0)

/-- 8xy7: as 8xy5 with the operands exchanged (R112). -/
def Obligations.ReverseSubtractWithNoBorrow : Prop :=
  ∀ (x y : RegIx) (s : State), decodeWord (wordXYN 0x8 x y 0x7) = .ok (.subn x y) ∧
    ∃ t, exec (.subn x y) s = .next t ∧ t.pc = s.pc + 2 ∧ Keeps [.reg vf, .reg x] s t ∧
      ∀ f : Nat, (f = if (s.getV x).toNat ≤ (s.getV y).toNat then 1 else 0) →
        (x ≠ vf → (t.getV vf).toNat = f) ∧
        (x ≠ vf → y ≠ vf →
          (t.getV x).toNat = ((s.getV y).toNat + 256 - (s.getV x).toNat) % 256) ∧
        (x = vf → y ≠ vf → s.params.vfAlias = .sequential →
          (t.getV vf).toNat = ((s.getV y).toNat + 256 - f) % 256) ∧
        (x = vf → y ≠ vf → s.params.vfAlias = .snapshot →
          (t.getV vf).toNat = ((s.getV y).toNat + 256 - (s.getV vf).toNat) % 256) ∧
        (x ≠ vf → y = vf → s.params.vfAlias = .sequential →
          (t.getV x).toNat = (f + 256 - (s.getV x).toNat) % 256) ∧
        (x ≠ vf → y = vf → s.params.vfAlias = .snapshot →
          (t.getV x).toNat = ((s.getV vf).toNat + 256 - (s.getV x).toNat) % 256) ∧
        (x = vf → y = vf → (t.getV vf).toNat = 0)

/-- 8xy6: V[y] halved into V[x], its bit 0 to VF, and each VF_ALIAS where VF is involved (R113). -/
def Obligations.ShiftRightOfVy : Prop :=
  ∀ (x y : RegIx) (s : State), decodeWord (wordXYN 0x8 x y 0x6) = .ok (.shr x y) ∧
    ∃ t, exec (.shr x y) s = .next t ∧ t.pc = s.pc + 2 ∧ Keeps [.reg vf, .reg x] s t ∧
      (x ≠ vf → (t.getV vf).toNat = (s.getV y).toNat % 2) ∧
      (y ≠ vf → (t.getV x).toNat = (s.getV y).toNat / 2) ∧
      (y = vf → s.params.vfAlias = .sequential → (t.getV x).toNat = 0) ∧
      (y = vf → s.params.vfAlias = .snapshot → (t.getV x).toNat = (s.getV vf).toNat / 2)

/-- 8xyE: V[y] doubled into V[x], its bit 7 to VF, and each VF_ALIAS where VF is involved (R114). -/
def Obligations.ShiftLeftOfVy : Prop :=
  ∀ (x y : RegIx) (s : State), decodeWord (wordXYN 0x8 x y 0xE) = .ok (.shl x y) ∧
    ∃ t, exec (.shl x y) s = .next t ∧ t.pc = s.pc + 2 ∧ Keeps [.reg vf, .reg x] s t ∧
      (x ≠ vf → (t.getV vf).toNat = (s.getV y).toNat / 128) ∧
      (y ≠ vf → (t.getV x).toNat = (s.getV y).toNat * 2 % 256) ∧
      (y = vf → s.params.vfAlias = .sequential →
        (t.getV x).toNat = (s.getV vf).toNat / 128 * 2) ∧
      (y = vf → s.params.vfAlias = .snapshot → (t.getV x).toNat = (s.getV vf).toNat * 2 % 256)

/-- Cxkk: some byte AND kk, whatever the draw; the byte is the oldest one the random source has
lined up, which is then gone, where there is one (41_alu.md section 6; how the input is held is the
model's choice, log 7, log 8). -/
def Obligations.RandomByteMasked : Prop :=
  ∀ (x : RegIx) (kk : Byte) (s : State), decodeWord (wordXKK 0xC x kk) = .ok (.rnd x kk) ∧
    ∃ t r, exec (.rnd x kk) s = .next t ∧ t.getV x = r &&& kk ∧ t.pc = s.pc + 2 ∧
      Keeps (.reg x :: drawParts s) s t ∧
      ∀ oldest later, s.rand = oldest :: later → r = oldest ∧ t.rand = later

/-! ## Index register and memory -/

/-- Annn (R121). -/
def Obligations.LoadIndex : Prop :=
  ∀ (nnn : BitVec 12) (s : State), decodeWord (wordNNN 0xA nnn) = .ok (.ldI nnn) ∧
    ∃ t, exec (.ldI nnn) s = .next t ∧ t.index.toNat = nnn.toNat ∧ t.pc = s.pc + 2 ∧
      Keeps [.index] s t

/-- Fx1E and Fx29 (R122, R123). -/
def Obligations.IndexArithmetic : Prop :=
  ∀ (x : RegIx) (s : State),
    decodeWord (wordXKK 0xF x 0x1E) = .ok (.addI x) ∧
    decodeWord (wordXKK 0xF x 0x29) = .ok (.ldF x) ∧
    (∃ t, exec (.addI x) s = .next t ∧
      t.index.toNat = (s.index.toNat + (s.getV x).toNat) % 65536 ∧ t.pc = s.pc + 2 ∧
      Keeps [.index] s t) ∧
    (∃ t, exec (.ldF x) s = .next t ∧ t.index.toNat = 5 * (s.getV x).toNat ∧ t.pc = s.pc + 2 ∧
      Keeps [.index] s t)

/-- Fx33 where the store is allowed, and its fault when I + 2 is above 0xFFF (R124). Memory is
assumed in its canonical form, which `StepKeepsInvariant` keeps. -/
def Obligations.DecimalDigitsStored : Prop :=
  ∀ (x : RegIx) (s : State), decodeWord (wordXKK 0xF x 0x33) = .ok (.ldB x) ∧
    (Memory.wf s.mem = true → inRange s.base 3 → storeAllowed s s.base →
      ∃ t, exec (.ldB x) s = .next t ∧
        (t.byteAt s.base).toNat = (s.getV x).toNat / 100 ∧
        (t.byteAt (s.base + 1)).toNat = (s.getV x).toNat / 10 % 10 ∧
        (t.byteAt (s.base + 2)).toNat = (s.getV x).toNat % 10 ∧
        t.pc = s.pc + 2 ∧ Keeps (blockBytes s.base 3) s t) ∧
    (0xFFF < s.base + 2 → ∃ a, exec (.ldB x) s = .fault (.addressOutOfRange a))

/-- Fx55 where the store is allowed, and its fault when I + x is above 0xFFF (R125). Memory is
assumed in its canonical form, which `StepKeepsInvariant` keeps. -/
def Obligations.RegisterBlockStored : Prop :=
  ∀ (x : RegIx) (s : State), decodeWord (wordXKK 0xF x 0x55) = .ok (.ldMI x) ∧
    (Memory.wf s.mem = true → inRange s.base (x.val + 1) → storeAllowed s s.base →
      ∃ t, exec (.ldMI x) s = .next t ∧
        (∀ k : RegIx, k ≤ x → t.byteAt (s.base + k.val) = s.getV k) ∧
        t.index.toNat = (s.index.toNat + x.val + 1) % 65536 ∧ t.pc = s.pc + 2 ∧
        Keeps (.index :: blockBytes s.base (x.val + 1)) s t) ∧
    (0xFFF < s.base + x.val → ∃ a, exec (.ldMI x) s = .fault (.addressOutOfRange a))

/-- Fx65, and its fault when I + x is above 0xFFF (R126). -/
def Obligations.RegisterBlockLoaded : Prop :=
  ∀ (x : RegIx) (s : State), decodeWord (wordXKK 0xF x 0x65) = .ok (.ldVMI x) ∧
    (inRange s.base (x.val + 1) →
      ∃ t, exec (.ldVMI x) s = .next t ∧
        (∀ k : RegIx, k ≤ x → t.getV k = s.byteAt (s.base + k.val)) ∧
        t.index.toNat = (s.index.toNat + x.val + 1) % 65536 ∧ t.pc = s.pc + 2 ∧
        Keeps (.index :: blockRegs x) s t) ∧
    (0xFFF < s.base + x.val → ∃ a, exec (.ldVMI x) s = .fault (.addressOutOfRange a))

/-- A Fx55 that overwrites the next instruction's two bytes changes what the next step runs: the
word of V0 and V1 (20_memory.md section 6). -/
def Obligations.StoreSeenByNextFetch : Prop :=
  ∀ (x : RegIx) (s : State) (i : Instr), s.halt = none → Memory.wf s.mem = true →
    inRange s.base (x.val + 1) → storeAllowed s s.base → x ≠ 0 → s.base = s.pc.toNat + 2 →
    decodeWord (wordOfBytes (s.getV 0) (s.getV 1)) = .ok i →
    ∃ t, exec (.ldMI x) s = .next t ∧ step t = exec i t

/-- Under FONT_WRITE = refuse, no run of steps and host transactions without a reset changes a font
byte (10_state.md section 8; the spec's decision D4, log 3). -/
def Obligations.FontNeverChangesUnderRefuse : Prop :=
  ∀ (as : List Transaction) (s : State), s.params.fontWrite = .refuse → Transaction.reset ∉ as →
    ∀ a < 0x50, (runTransactions as s).byteAt a = s.byteAt a

/-! ## Display -/

/-- `clear()` and 00E0: every cell 0 and VF kept (43_display.md sections 1 and 2; that only the word
00E0 is it is 92_eei_decisions.md D3, log 14). -/
def Obligations.ClearScreen : Prop :=
  (∀ w : Word, decodeWord w = .ok .cls ↔ w = 0x00E0) ∧
  ∀ s : State, ∃ t, exec .cls s = .next t ∧ t.pc = s.pc + 2 ∧ Keeps [.display] s t ∧
    ∀ px py, Display.getPixel t.disp px py = false

/-- `drawSprite`: every cell under a sprite pixel is XORed with its bit, wrapped to the opposite
edge, every other cell is left alone, and the flag is raised exactly when a 1 bit meets a 1 cell
(R131, R132, R134). -/
def Obligations.SpriteXorsWrappedCells : Prop :=
  ∀ (sx sy : Nat) (bytes : List Byte) (d : Display), bytes.length ≤ 15 →
    (∀ row < bytes.length, ∀ col < 8,
      Display.getPixel (drawSprite sx sy bytes d).1 (sx + col) (sy + row) =
        (Display.getPixel d (sx + col) (sy + row) ^^ spriteBit bytes row col)) ∧
    (∀ px py, (∀ row < bytes.length, ∀ col < 8, ¬ under sx sy row col px py) →
      Display.getPixel (drawSprite sx sy bytes d).1 px py = Display.getPixel d px py) ∧
    ((drawSprite sx sy bytes d).2 = true ↔ ∃ row < bytes.length, ∃ col < 8,
      spriteBit bytes row col = true ∧ Display.getPixel d (sx + col) (sy + row) = true)

/-- Drawing the same sprite twice restores the display, and the second draw collides exactly when
the first set a cell that was 0 (R135). -/
def Obligations.SpriteDrawIsSelfInverse : Prop :=
  ∀ (sx sy : Nat) (bytes : List Byte) (d : Display), bytes.length ≤ 15 →
    (drawSprite sx sy bytes (drawSprite sx sy bytes d).1).1 = d ∧
    ((drawSprite sx sy bytes (drawSprite sx sy bytes d).1).2 = true ↔
      ∃ px py, Display.getPixel d px py = false ∧
        Display.getPixel (drawSprite sx sy bytes d).1 px py = true)

/-- Dxyn draws the n bytes at I at (V[x], V[y]) and writes the collision to VF as 1 or 0, n = 0
included, which reads no memory; it faults when n > 0 and I + n - 1 is above 0xFFF
(43_display.md section 2; the operands are the spec's decision D5, the flag's value D6, log 13). -/
def Obligations.DrawSpriteInstruction : Prop :=
  ∀ (x y : RegIx) (n : Nat) (s : State), n < 16 →
    decodeWord (wordXYN 0xD x y (BitVec.ofNat 4 n)) = .ok (.drw x y n) ∧
    (n = 0 ∨ inRange s.base n → ∃ t bytes, exec (.drw x y n) s = .next t ∧ bytes.length = n ∧
      (∀ k < n, bytes.getD k 0 = s.byteAt (s.base + k)) ∧
      t.disp = (drawSprite (s.getV x).toNat (s.getV y).toNat bytes s.disp).1 ∧
      (t.getV vf).toNat =
        (if (drawSprite (s.getV x).toNat (s.getV y).toNat bytes s.disp).2 then 1 else 0) ∧
      t.pc = s.pc + 2 ∧ Keeps [.display, .reg vf] s t) ∧
    (0 < n → 0xFFF < s.base + n - 1 →
      ∃ a, exec (.drw x y n) s = .fault (.addressOutOfRange a))

/-! ## Keys and timers -/

/-- Ex9E and ExA1: opposite skips on the key V[x] names; for a key number above 15 either outcome,
both complete, and only the model's draw counter moves beside PC (44_input_and_timers.md section 1;
the draw above 15 is the spec's decision D7, log 8, log 9). -/
def Obligations.SkipOnKey : Prop :=
  ∀ (x : RegIx) (s : State),
    decodeWord (wordXKK 0xE x 0x9E) = .ok (.skp x) ∧
    decodeWord (wordXKK 0xE x 0xA1) = .ok (.sknp x) ∧
    (∀ k : KeyIx, (s.getV x).toNat = k.val →
      (∃ t, exec (.skp x) s = .next t ∧
        t.pc = (if s.keys[k.val] then s.pc + 4 else s.pc + 2) ∧ Keeps [] s t) ∧
      (∃ t, exec (.sknp x) s = .next t ∧
        t.pc = (if s.keys[k.val] then s.pc + 2 else s.pc + 4) ∧ Keeps [] s t)) ∧
    (15 < (s.getV x).toNat →
      (∃ t, exec (.skp x) s = .next t ∧ (t.pc = s.pc + 4 ∨ t.pc = s.pc + 2) ∧
        Keeps [.draws] s t) ∧
      (∃ t, exec (.sknp x) s = .next t ∧ (t.pc = s.pc + 4 ∨ t.pc = s.pc + 2) ∧
        Keeps [.draws] s t))

/-- Fx0A: with no key pressed the state is unchanged, PC included; with some key pressed V[x] takes
the number of a pressed key and nothing else changes but PC (R143) and the model's own draw counter
(log 8, log 10). -/
def Obligations.WaitForKey : Prop :=
  ∀ (x : RegIx) (s : State), decodeWord (wordXKK 0xF x 0x0A) = .ok (.ldVK x) ∧
    ((∀ k : KeyIx, s.keys[k.val] = false) → exec (.ldVK x) s = .next s) ∧
    ((∃ k : KeyIx, s.keys[k.val] = true) →
      ∃ t, ∃ k : KeyIx, exec (.ldVK x) s = .next t ∧ s.keys[k.val] = true ∧
        (t.getV x).toNat = k.val ∧ t.pc = s.pc + 2 ∧ Keeps [.reg x, .draws] s t)

/-- Fx07, Fx15 and Fx18 (R145, R146, R147). -/
def Obligations.TimerInstructions : Prop :=
  ∀ (x : RegIx) (s : State),
    decodeWord (wordXKK 0xF x 0x07) = .ok (.ldVDT x) ∧
    decodeWord (wordXKK 0xF x 0x15) = .ok (.ldDTV x) ∧
    decodeWord (wordXKK 0xF x 0x18) = .ok (.ldSTV x) ∧
    (∃ t, exec (.ldVDT x) s = .next t ∧ t.getV x = s.dt ∧ t.pc = s.pc + 2 ∧
      Keeps [.reg x] s t) ∧
    (∃ t, exec (.ldDTV x) s = .next t ∧ t.dt = s.getV x ∧ t.pc = s.pc + 2 ∧
      Keeps [.delay] s t) ∧
    (∃ t, exec (.ldSTV x) s = .next t ∧ t.st = s.getV x ∧ t.pc = s.pc + 2 ∧
      (t.toneOn = true ↔ s.getV x ≠ 0) ∧ Keeps [.sound] s t)

/-- `tickDelay` and `tickSound` count their timer down, clamped at 0, and change nothing else
(R162, R163). -/
def Obligations.TicksCountDown : Prop :=
  ∀ s : State,
    ((s.tickDelay).dt.toNat = s.dt.toNat - 1 ∧ s.tickDelay.pc = s.pc ∧
      Keeps [.delay] s s.tickDelay) ∧
    ((s.tickSound).st.toNat = s.st.toNat - 1 ∧ s.tickSound.pc = s.pc ∧
      Keeps [.sound] s s.tickSound)

/-- Fx15, then `k` delay ticks, then Fx07 reads the written value less `k`, clamped at 0
(70_reset_and_hazards.md section 4). -/
def Obligations.DelayReadAfterTicks : Prop :=
  ∀ (x y : RegIx) (s : State) (k : Nat),
    ∃ t, exec (.ldDTV x) s = .next t ∧
      ∃ u, exec (.ldVDT y) (runTransactions (List.replicate k .tickDelay) t) = .next u ∧
        (u.getV y).toNat = (s.getV x).toNat - k

/-! ## Reset, load and invariants -/

/-- `reset()` from any state, halted or not, and with any FONT_DATA: every piece of the block's
state has its reset value (R171). -/
def Obligations.ResetFromAnyState : Prop :=
  ∀ s : State, ∃ t, transact .reset s = (t, .ok) ∧
    (∀ d : Fin 16, ∀ j : Fin 5, t.byteAt (5 * d.val + j.val) = (s.params.font[d.val])[j.val]) ∧
    (∀ a, 0x50 ≤ a → t.byteAt a = 0) ∧
    (∀ r, t.getV r = 0) ∧ t.index = 0 ∧ t.pc = 0x200 ∧
    (∀ k : Fin 16, t.stack[k.val] = 0) ∧ t.sp = 0 ∧ t.dt = 0 ∧ t.st = 0 ∧
    (∀ px py, Display.getPixel t.disp px py = false) ∧ t.halt = none

/-- After reset with no program loaded the first step fetches 0x0000 and faults
(70_reset_and_hazards.md section 1). -/
def Obligations.FirstStepWithoutProgramFaults : Prop :=
  step State.reset = .fault (.unknownInstruction 0x0000)

/-- `loadProgram` copies up to 3584 bytes to 0x200 on and changes nothing else, PC and HALT
included; a longer program is refused and changes nothing (70_reset_and_hazards.md section 2; the
spec's decision D16, log 18). Memory is assumed in its canonical form. -/
def Obligations.ProgramLoad : Prop :=
  ∀ (bytes : List Byte) (s : State), Memory.wf s.mem = true →
    (bytes.length ≤ 3584 → ∃ t, transact (.loadProgram bytes) s = (t, .ok) ∧
      (∀ k < bytes.length, t.byteAt (0x200 + k) = bytes.getD k 0) ∧ t.pc = s.pc ∧
      Keeps (blockBytes 0x200 bytes.length) s t) ∧
    (3584 < bytes.length →
      transact (.loadProgram bytes) s = (s, .refused (.programTooLong bytes.length)))

/-- The state after reset meets the invariant. -/
def Obligations.ResetMeetsInvariant : Prop := State.reset.Inv

/-- Every step keeps the invariant: memory stays in its canonical form within 0x000 to 0xFFF, PC
stays at or below 0x10FE, and every address on the stack stays at or below 0x1000
(40_step_and_control.md sections 1 to 5; 20_memory.md section 1). -/
def Obligations.StepKeepsInvariant : Prop :=
  ∀ s t : State, s.Inv → step s = .next t → t.Inv

/-- Every run of steps and host transactions keeps the invariant, whatever order the host chooses
(60_exceptions.md section 4; 20_memory.md section 5). -/
def Obligations.RunsKeepInvariant : Prop :=
  ∀ (as : List Transaction) (s : State), s.Inv → (runTransactions as s).Inv
end

