-- ==== Sys2Proof/Laws/Decode.lean ====
section
/-!
SUPPORT. The fields of an encoded word: what each field of a word of each format reads as.
-/

namespace Sys2Proof

/-! ## Words of format NNN -/

@[simp] theorem fieldOp_wordNNN (op : BitVec 4) (nnn : BitVec 12) :
    fieldOp (wordNNN op nnn) = op := by
  simp only [fieldOp, wordNNN]
  exact BitVec.extractLsb'_append_eq_left

@[simp] theorem fieldNNN_wordNNN (op : BitVec 4) (nnn : BitVec 12) :
    fieldNNN (wordNNN op nnn) = nnn := by
  simp only [fieldNNN, wordNNN]
  exact BitVec.extractLsb'_append_eq_right

/-! ## Words of format XKK -/

@[simp] theorem toFin_nibble (x : RegIx) : (nibble x).toFin = x := rfl

@[simp] theorem fieldOp_wordXKK (op : BitVec 4) (x : RegIx) (kk : Byte) :
    fieldOp (wordXKK op x kk) = op := by
  simp only [fieldOp, wordXKK]
  exact BitVec.extractLsb'_append_eq_left

@[simp] theorem fieldX_wordXKK (op : BitVec 4) (x : RegIx) (kk : Byte) :
    fieldX (wordXKK op x kk) = x := by
  have h : (op ++ (nibble x ++ kk)).extractLsb' 8 4 = nibble x := by
    rw [BitVec.extractLsb'_append_eq_of_add_le (by decide)]
    exact BitVec.extractLsb'_append_eq_left
  simp [fieldX, wordXKK, h]

@[simp] theorem fieldKK_wordXKK (op : BitVec 4) (x : RegIx) (kk : Byte) :
    fieldKK (wordXKK op x kk) = kk := by
  have h : (op ++ (nibble x ++ kk)).extractLsb' 0 8 = kk := by
    rw [BitVec.extractLsb'_append_eq_of_add_le (by decide)]
    exact BitVec.extractLsb'_append_eq_right
  simp [fieldKK, wordXKK, h]

/-! ## Words of format XYN -/

@[simp] theorem fieldOp_wordXYN (op : BitVec 4) (x y : RegIx) (n : BitVec 4) :
    fieldOp (wordXYN op x y n) = op := by
  simp only [fieldOp, wordXYN]
  exact BitVec.extractLsb'_append_eq_left

@[simp] theorem fieldX_wordXYN (op : BitVec 4) (x y : RegIx) (n : BitVec 4) :
    fieldX (wordXYN op x y n) = x := by
  have h : (op ++ (nibble x ++ (nibble y ++ n))).extractLsb' 8 4 = nibble x := by
    rw [BitVec.extractLsb'_append_eq_of_add_le (by decide)]
    exact BitVec.extractLsb'_append_eq_left
  simp [fieldX, wordXYN, h]

@[simp] theorem fieldY_wordXYN (op : BitVec 4) (x y : RegIx) (n : BitVec 4) :
    fieldY (wordXYN op x y n) = y := by
  have h : (op ++ (nibble x ++ (nibble y ++ n))).extractLsb' 4 4 = nibble y := by
    rw [BitVec.extractLsb'_append_eq_of_add_le (by decide),
      BitVec.extractLsb'_append_eq_of_add_le (by decide)]
    exact BitVec.extractLsb'_append_eq_left
  simp [fieldY, wordXYN, h]

@[simp] theorem fieldN_wordXYN (op : BitVec 4) (x y : RegIx) (n : BitVec 4) :
    fieldN (wordXYN op x y n) = n := by
  have h : (op ++ (nibble x ++ (nibble y ++ n))).extractLsb' 0 4 = n := by
    rw [BitVec.extractLsb'_append_eq_of_add_le (by decide),
      BitVec.extractLsb'_append_eq_of_add_le (by decide)]
    exact BitVec.extractLsb'_append_eq_right
  simp [fieldN, wordXYN, h]

/-! ## Bytes of a word -/

@[simp] theorem wordOfBytes_high_low (w : Word) : wordOfBytes (highByte w) (lowByte w) = w := by
  unfold wordOfBytes highByte lowByte
  refine BitVec.eq_of_getLsbD_eq fun k hk => ?_
  rw [BitVec.getLsbD_append]
  split
  · simp [*]
  · have h8 : k - 8 < 8 := by omega
    have hk8 : 8 + (k - 8) = k := by omega
    simp [h8, hk8]

@[simp] theorem highByte_wordOfBytes (hi lo : Byte) : highByte (wordOfBytes hi lo) = hi :=
  BitVec.extractLsb'_append_eq_left

@[simp] theorem lowByte_wordOfBytes (hi lo : Byte) : lowByte (wordOfBytes hi lo) = lo :=
  BitVec.extractLsb'_append_eq_right

/-- The value of a big-endian word (20_memory.md R50). -/
theorem wordOfBytes_toNat (hi lo : Byte) :
    (wordOfBytes hi lo).toNat = hi.toNat * 256 + lo.toNat := by
  have h : (wordOfBytes hi lo).toNat = hi.toNat <<< 8 ||| lo.toNat := BitVec.toNat_append hi lo
  rw [h, ← Nat.shiftLeft_add_eq_or_of_lt lo.isLt, Nat.shiftLeft_eq]

/-! ## A word from its fields -/

theorem wordNNN_fields (w : Word) : wordNNN (fieldOp w) (fieldNNN w) = w := by
  unfold wordNNN fieldOp fieldNNN
  refine BitVec.eq_of_getLsbD_eq fun k hk => ?_
  rw [BitVec.getLsbD_append]
  split
  · simp [*]
  · have h1 : k - 12 < 4 := by omega
    have h2 : 12 + (k - 12) = k := by omega
    simp [h1, h2]

theorem kk_fields (w : Word) : nibble (fieldX w) ++ fieldKK w = fieldNNN w := by
  rw [show nibble (fieldX w) = w.extractLsb' 8 4 from rfl]
  unfold fieldKK fieldNNN
  refine BitVec.eq_of_getLsbD_eq fun k hk => ?_
  rw [BitVec.getLsbD_append]
  split
  · have h1 : k < 12 := by omega
    simp [*]
  · have h1 : k - 8 < 4 := by omega
    have h2 : 8 + (k - 8) = k := by omega
    have h3 : k < 12 := by omega
    simp [h1, h2, h3]

theorem yn_fields (w : Word) : nibble (fieldY w) ++ fieldN w = fieldKK w := by
  rw [show nibble (fieldY w) = w.extractLsb' 4 4 from rfl]
  unfold fieldN fieldKK
  refine BitVec.eq_of_getLsbD_eq fun k hk => ?_
  rw [BitVec.getLsbD_append]
  split
  · have h1 : k < 8 := by omega
    simp [*]
  · have h1 : k - 4 < 4 := by omega
    have h2 : 4 + (k - 4) = k := by omega
    have h3 : k < 8 := by omega
    simp [h1, h2, h3]

theorem wordXKK_fields (w : Word) : wordXKK (fieldOp w) (fieldX w) (fieldKK w) = w := by
  unfold wordXKK
  rw [kk_fields]
  exact wordNNN_fields w

theorem wordXYN_fields (w : Word) : wordXYN (fieldOp w) (fieldX w) (fieldY w) (fieldN w) = w := by
  unfold wordXYN
  rw [yn_fields]
  exact wordXKK_fields w

end Sys2Proof
end

