-- ==== Sys2Proof/Laws/State.lean ====
section
/-!
SUPPORT. What each named update of the state leaves in each field: one lemma per field per update,
so that no proof unfolds a record update.
-/

namespace Sys2Proof.Machine

open Sys2Proof

variable (s : State)

/-! ## setV -/

@[simp] theorem State.setV_mem (x : RegIx) (b : Byte) : (s.setV x b).mem = s.mem := rfl
@[simp] theorem State.setV_v (x : RegIx) (b : Byte) : (s.setV x b).v = s.v.set x.val b := rfl
@[simp] theorem State.setV_index (x : RegIx) (b : Byte) : (s.setV x b).index = s.index := rfl
@[simp] theorem State.setV_pc (x : RegIx) (b : Byte) : (s.setV x b).pc = s.pc := rfl
@[simp] theorem State.setV_stack (x : RegIx) (b : Byte) : (s.setV x b).stack = s.stack := rfl
@[simp] theorem State.setV_sp (x : RegIx) (b : Byte) : (s.setV x b).sp = s.sp := rfl
@[simp] theorem State.setV_dt (x : RegIx) (b : Byte) : (s.setV x b).dt = s.dt := rfl
@[simp] theorem State.setV_st (x : RegIx) (b : Byte) : (s.setV x b).st = s.st := rfl
@[simp] theorem State.setV_disp (x : RegIx) (b : Byte) : (s.setV x b).disp = s.disp := rfl
@[simp] theorem State.setV_halt (x : RegIx) (b : Byte) : (s.setV x b).halt = s.halt := rfl
@[simp] theorem State.setV_keys (x : RegIx) (b : Byte) : (s.setV x b).keys = s.keys := rfl
@[simp] theorem State.setV_rand (x : RegIx) (b : Byte) : (s.setV x b).rand = s.rand := rfl
@[simp] theorem State.setV_draws (x : RegIx) (b : Byte) : (s.setV x b).draws = s.draws := rfl
@[simp] theorem State.setV_params (x : RegIx) (b : Byte) : (s.setV x b).params = s.params := rfl
@[simp] theorem State.byteAt_setV (x : RegIx) (b : Byte) (a : Nat) :
    (s.setV x b).byteAt a = s.byteAt a := rfl

/-! ## setIndex -/

@[simp] theorem State.setIndex_mem (w : Word) : (s.setIndex w).mem = s.mem := rfl
@[simp] theorem State.setIndex_v (w : Word) : (s.setIndex w).v = s.v := rfl
@[simp] theorem State.setIndex_index (w : Word) : (s.setIndex w).index = w := rfl
@[simp] theorem State.setIndex_pc (w : Word) : (s.setIndex w).pc = s.pc := rfl
@[simp] theorem State.setIndex_stack (w : Word) : (s.setIndex w).stack = s.stack := rfl
@[simp] theorem State.setIndex_sp (w : Word) : (s.setIndex w).sp = s.sp := rfl
@[simp] theorem State.setIndex_dt (w : Word) : (s.setIndex w).dt = s.dt := rfl
@[simp] theorem State.setIndex_st (w : Word) : (s.setIndex w).st = s.st := rfl
@[simp] theorem State.setIndex_disp (w : Word) : (s.setIndex w).disp = s.disp := rfl
@[simp] theorem State.setIndex_halt (w : Word) : (s.setIndex w).halt = s.halt := rfl
@[simp] theorem State.setIndex_keys (w : Word) : (s.setIndex w).keys = s.keys := rfl
@[simp] theorem State.setIndex_rand (w : Word) : (s.setIndex w).rand = s.rand := rfl
@[simp] theorem State.setIndex_draws (w : Word) : (s.setIndex w).draws = s.draws := rfl
@[simp] theorem State.setIndex_params (w : Word) : (s.setIndex w).params = s.params := rfl
@[simp] theorem State.getV_setIndex (w : Word) (r : RegIx) : (s.setIndex w).getV r = s.getV r := rfl
@[simp] theorem State.byteAt_setIndex (w : Word) (a : Nat) :
    (s.setIndex w).byteAt a = s.byteAt a := rfl

/-! ## setPc -/

@[simp] theorem State.setPc_mem (w : Word) : (s.setPc w).mem = s.mem := rfl
@[simp] theorem State.setPc_v (w : Word) : (s.setPc w).v = s.v := rfl
@[simp] theorem State.setPc_index (w : Word) : (s.setPc w).index = s.index := rfl
@[simp] theorem State.setPc_pc (w : Word) : (s.setPc w).pc = w := rfl
@[simp] theorem State.setPc_stack (w : Word) : (s.setPc w).stack = s.stack := rfl
@[simp] theorem State.setPc_sp (w : Word) : (s.setPc w).sp = s.sp := rfl
@[simp] theorem State.setPc_dt (w : Word) : (s.setPc w).dt = s.dt := rfl
@[simp] theorem State.setPc_st (w : Word) : (s.setPc w).st = s.st := rfl
@[simp] theorem State.setPc_disp (w : Word) : (s.setPc w).disp = s.disp := rfl
@[simp] theorem State.setPc_halt (w : Word) : (s.setPc w).halt = s.halt := rfl
@[simp] theorem State.setPc_keys (w : Word) : (s.setPc w).keys = s.keys := rfl
@[simp] theorem State.setPc_rand (w : Word) : (s.setPc w).rand = s.rand := rfl
@[simp] theorem State.setPc_draws (w : Word) : (s.setPc w).draws = s.draws := rfl
@[simp] theorem State.setPc_params (w : Word) : (s.setPc w).params = s.params := rfl
@[simp] theorem State.getV_setPc (w : Word) (r : RegIx) : (s.setPc w).getV r = s.getV r := rfl
@[simp] theorem State.byteAt_setPc (w : Word) (a : Nat) : (s.setPc w).byteAt a = s.byteAt a := rfl

/-! ## advance -/

@[simp] theorem State.advance_mem : s.advance.mem = s.mem := rfl
@[simp] theorem State.advance_v : s.advance.v = s.v := rfl
@[simp] theorem State.advance_index : s.advance.index = s.index := rfl
@[simp] theorem State.advance_pc : s.advance.pc = s.pc + 2 := rfl
@[simp] theorem State.advance_stack : s.advance.stack = s.stack := rfl
@[simp] theorem State.advance_sp : s.advance.sp = s.sp := rfl
@[simp] theorem State.advance_dt : s.advance.dt = s.dt := rfl
@[simp] theorem State.advance_st : s.advance.st = s.st := rfl
@[simp] theorem State.advance_disp : s.advance.disp = s.disp := rfl
@[simp] theorem State.advance_halt : s.advance.halt = s.halt := rfl
@[simp] theorem State.advance_keys : s.advance.keys = s.keys := rfl
@[simp] theorem State.advance_rand : s.advance.rand = s.rand := rfl
@[simp] theorem State.advance_draws : s.advance.draws = s.draws := rfl
@[simp] theorem State.advance_params : s.advance.params = s.params := rfl
@[simp] theorem State.getV_advance (r : RegIx) : s.advance.getV r = s.getV r := rfl
@[simp] theorem State.byteAt_advance (a : Nat) : s.advance.byteAt a = s.byteAt a := rfl

/-! ## setDt -/

@[simp] theorem State.setDt_mem (b : Byte) : (s.setDt b).mem = s.mem := rfl
@[simp] theorem State.setDt_v (b : Byte) : (s.setDt b).v = s.v := rfl
@[simp] theorem State.setDt_index (b : Byte) : (s.setDt b).index = s.index := rfl
@[simp] theorem State.setDt_pc (b : Byte) : (s.setDt b).pc = s.pc := rfl
@[simp] theorem State.setDt_stack (b : Byte) : (s.setDt b).stack = s.stack := rfl
@[simp] theorem State.setDt_sp (b : Byte) : (s.setDt b).sp = s.sp := rfl
@[simp] theorem State.setDt_dt (b : Byte) : (s.setDt b).dt = b := rfl
@[simp] theorem State.setDt_st (b : Byte) : (s.setDt b).st = s.st := rfl
@[simp] theorem State.setDt_disp (b : Byte) : (s.setDt b).disp = s.disp := rfl
@[simp] theorem State.setDt_halt (b : Byte) : (s.setDt b).halt = s.halt := rfl
@[simp] theorem State.setDt_keys (b : Byte) : (s.setDt b).keys = s.keys := rfl
@[simp] theorem State.setDt_rand (b : Byte) : (s.setDt b).rand = s.rand := rfl
@[simp] theorem State.setDt_draws (b : Byte) : (s.setDt b).draws = s.draws := rfl
@[simp] theorem State.setDt_params (b : Byte) : (s.setDt b).params = s.params := rfl
@[simp] theorem State.getV_setDt (b : Byte) (r : RegIx) : (s.setDt b).getV r = s.getV r := rfl
@[simp] theorem State.byteAt_setDt (b : Byte) (a : Nat) : (s.setDt b).byteAt a = s.byteAt a := rfl

/-! ## setSt -/

@[simp] theorem State.setSt_mem (b : Byte) : (s.setSt b).mem = s.mem := rfl
@[simp] theorem State.setSt_v (b : Byte) : (s.setSt b).v = s.v := rfl
@[simp] theorem State.setSt_index (b : Byte) : (s.setSt b).index = s.index := rfl
@[simp] theorem State.setSt_pc (b : Byte) : (s.setSt b).pc = s.pc := rfl
@[simp] theorem State.setSt_stack (b : Byte) : (s.setSt b).stack = s.stack := rfl
@[simp] theorem State.setSt_sp (b : Byte) : (s.setSt b).sp = s.sp := rfl
@[simp] theorem State.setSt_dt (b : Byte) : (s.setSt b).dt = s.dt := rfl
@[simp] theorem State.setSt_st (b : Byte) : (s.setSt b).st = b := rfl
@[simp] theorem State.setSt_disp (b : Byte) : (s.setSt b).disp = s.disp := rfl
@[simp] theorem State.setSt_halt (b : Byte) : (s.setSt b).halt = s.halt := rfl
@[simp] theorem State.setSt_keys (b : Byte) : (s.setSt b).keys = s.keys := rfl
@[simp] theorem State.setSt_rand (b : Byte) : (s.setSt b).rand = s.rand := rfl
@[simp] theorem State.setSt_draws (b : Byte) : (s.setSt b).draws = s.draws := rfl
@[simp] theorem State.setSt_params (b : Byte) : (s.setSt b).params = s.params := rfl
@[simp] theorem State.getV_setSt (b : Byte) (r : RegIx) : (s.setSt b).getV r = s.getV r := rfl
@[simp] theorem State.byteAt_setSt (b : Byte) (a : Nat) : (s.setSt b).byteAt a = s.byteAt a := rfl

/-! ## setMem -/

@[simp] theorem State.setMem_mem (m : Memory) : (s.setMem m).mem = m := rfl
@[simp] theorem State.setMem_v (m : Memory) : (s.setMem m).v = s.v := rfl
@[simp] theorem State.setMem_index (m : Memory) : (s.setMem m).index = s.index := rfl
@[simp] theorem State.setMem_pc (m : Memory) : (s.setMem m).pc = s.pc := rfl
@[simp] theorem State.setMem_stack (m : Memory) : (s.setMem m).stack = s.stack := rfl
@[simp] theorem State.setMem_sp (m : Memory) : (s.setMem m).sp = s.sp := rfl
@[simp] theorem State.setMem_dt (m : Memory) : (s.setMem m).dt = s.dt := rfl
@[simp] theorem State.setMem_st (m : Memory) : (s.setMem m).st = s.st := rfl
@[simp] theorem State.setMem_disp (m : Memory) : (s.setMem m).disp = s.disp := rfl
@[simp] theorem State.setMem_halt (m : Memory) : (s.setMem m).halt = s.halt := rfl
@[simp] theorem State.setMem_keys (m : Memory) : (s.setMem m).keys = s.keys := rfl
@[simp] theorem State.setMem_rand (m : Memory) : (s.setMem m).rand = s.rand := rfl
@[simp] theorem State.setMem_draws (m : Memory) : (s.setMem m).draws = s.draws := rfl
@[simp] theorem State.setMem_params (m : Memory) : (s.setMem m).params = s.params := rfl
@[simp] theorem State.getV_setMem (m : Memory) (r : RegIx) : (s.setMem m).getV r = s.getV r := rfl

/-! ## setDisp -/

@[simp] theorem State.setDisp_mem (d : Display) : (s.setDisp d).mem = s.mem := rfl
@[simp] theorem State.setDisp_v (d : Display) : (s.setDisp d).v = s.v := rfl
@[simp] theorem State.setDisp_index (d : Display) : (s.setDisp d).index = s.index := rfl
@[simp] theorem State.setDisp_pc (d : Display) : (s.setDisp d).pc = s.pc := rfl
@[simp] theorem State.setDisp_stack (d : Display) : (s.setDisp d).stack = s.stack := rfl
@[simp] theorem State.setDisp_sp (d : Display) : (s.setDisp d).sp = s.sp := rfl
@[simp] theorem State.setDisp_dt (d : Display) : (s.setDisp d).dt = s.dt := rfl
@[simp] theorem State.setDisp_st (d : Display) : (s.setDisp d).st = s.st := rfl
@[simp] theorem State.setDisp_disp (d : Display) : (s.setDisp d).disp = d := rfl
@[simp] theorem State.setDisp_halt (d : Display) : (s.setDisp d).halt = s.halt := rfl
@[simp] theorem State.setDisp_keys (d : Display) : (s.setDisp d).keys = s.keys := rfl
@[simp] theorem State.setDisp_rand (d : Display) : (s.setDisp d).rand = s.rand := rfl
@[simp] theorem State.setDisp_draws (d : Display) : (s.setDisp d).draws = s.draws := rfl
@[simp] theorem State.setDisp_params (d : Display) : (s.setDisp d).params = s.params := rfl
@[simp] theorem State.getV_setDisp (d : Display) (r : RegIx) :
    (s.setDisp d).getV r = s.getV r := rfl
@[simp] theorem State.byteAt_setDisp (d : Display) (a : Nat) :
    (s.setDisp d).byteAt a = s.byteAt a := rfl

/-! ## setStack -/

@[simp] theorem State.setStack_mem (slots : Vector Word 16) (k : Fin 17) :
    (s.setStack slots k).mem = s.mem := rfl
@[simp] theorem State.setStack_v (slots : Vector Word 16) (k : Fin 17) :
    (s.setStack slots k).v = s.v := rfl
@[simp] theorem State.setStack_index (slots : Vector Word 16) (k : Fin 17) :
    (s.setStack slots k).index = s.index := rfl
@[simp] theorem State.setStack_pc (slots : Vector Word 16) (k : Fin 17) :
    (s.setStack slots k).pc = s.pc := rfl
@[simp] theorem State.setStack_stack (slots : Vector Word 16) (k : Fin 17) :
    (s.setStack slots k).stack = slots := rfl
@[simp] theorem State.setStack_sp (slots : Vector Word 16) (k : Fin 17) :
    (s.setStack slots k).sp = k := rfl
@[simp] theorem State.setStack_dt (slots : Vector Word 16) (k : Fin 17) :
    (s.setStack slots k).dt = s.dt := rfl
@[simp] theorem State.setStack_st (slots : Vector Word 16) (k : Fin 17) :
    (s.setStack slots k).st = s.st := rfl
@[simp] theorem State.setStack_disp (slots : Vector Word 16) (k : Fin 17) :
    (s.setStack slots k).disp = s.disp := rfl
@[simp] theorem State.setStack_halt (slots : Vector Word 16) (k : Fin 17) :
    (s.setStack slots k).halt = s.halt := rfl
@[simp] theorem State.setStack_keys (slots : Vector Word 16) (k : Fin 17) :
    (s.setStack slots k).keys = s.keys := rfl
@[simp] theorem State.setStack_rand (slots : Vector Word 16) (k : Fin 17) :
    (s.setStack slots k).rand = s.rand := rfl
@[simp] theorem State.setStack_draws (slots : Vector Word 16) (k : Fin 17) :
    (s.setStack slots k).draws = s.draws := rfl
@[simp] theorem State.setStack_params (slots : Vector Word 16) (k : Fin 17) :
    (s.setStack slots k).params = s.params := rfl
@[simp] theorem State.getV_setStack (slots : Vector Word 16) (k : Fin 17) (r : RegIx) :
    (s.setStack slots k).getV r = s.getV r := rfl
@[simp] theorem State.byteAt_setStack (slots : Vector Word 16) (k : Fin 17) (a : Nat) :
    (s.setStack slots k).byteAt a = s.byteAt a := rfl

/-! ## setHalt -/

@[simp] theorem State.setHalt_mem (h : Option Fault) : (s.setHalt h).mem = s.mem := rfl
@[simp] theorem State.setHalt_v (h : Option Fault) : (s.setHalt h).v = s.v := rfl
@[simp] theorem State.setHalt_index (h : Option Fault) : (s.setHalt h).index = s.index := rfl
@[simp] theorem State.setHalt_pc (h : Option Fault) : (s.setHalt h).pc = s.pc := rfl
@[simp] theorem State.setHalt_stack (h : Option Fault) : (s.setHalt h).stack = s.stack := rfl
@[simp] theorem State.setHalt_sp (h : Option Fault) : (s.setHalt h).sp = s.sp := rfl
@[simp] theorem State.setHalt_dt (h : Option Fault) : (s.setHalt h).dt = s.dt := rfl
@[simp] theorem State.setHalt_st (h : Option Fault) : (s.setHalt h).st = s.st := rfl
@[simp] theorem State.setHalt_disp (h : Option Fault) : (s.setHalt h).disp = s.disp := rfl
@[simp] theorem State.setHalt_halt (h : Option Fault) : (s.setHalt h).halt = h := rfl
@[simp] theorem State.setHalt_keys (h : Option Fault) : (s.setHalt h).keys = s.keys := rfl
@[simp] theorem State.setHalt_rand (h : Option Fault) : (s.setHalt h).rand = s.rand := rfl
@[simp] theorem State.setHalt_draws (h : Option Fault) : (s.setHalt h).draws = s.draws := rfl
@[simp] theorem State.setHalt_params (h : Option Fault) : (s.setHalt h).params = s.params := rfl
@[simp] theorem State.getV_setHalt (h : Option Fault) (r : RegIx) :
    (s.setHalt h).getV r = s.getV r := rfl
@[simp] theorem State.byteAt_setHalt (h : Option Fault) (a : Nat) :
    (s.setHalt h).byteAt a = s.byteAt a := rfl

/-! ## setRand -/

@[simp] theorem State.setRand_mem (bytes : List Byte) : (s.setRand bytes).mem = s.mem := rfl
@[simp] theorem State.setRand_v (bytes : List Byte) : (s.setRand bytes).v = s.v := rfl
@[simp] theorem State.setRand_index (bytes : List Byte) : (s.setRand bytes).index = s.index := rfl
@[simp] theorem State.setRand_pc (bytes : List Byte) : (s.setRand bytes).pc = s.pc := rfl
@[simp] theorem State.setRand_stack (bytes : List Byte) : (s.setRand bytes).stack = s.stack := rfl
@[simp] theorem State.setRand_sp (bytes : List Byte) : (s.setRand bytes).sp = s.sp := rfl
@[simp] theorem State.setRand_dt (bytes : List Byte) : (s.setRand bytes).dt = s.dt := rfl
@[simp] theorem State.setRand_st (bytes : List Byte) : (s.setRand bytes).st = s.st := rfl
@[simp] theorem State.setRand_disp (bytes : List Byte) : (s.setRand bytes).disp = s.disp := rfl
@[simp] theorem State.setRand_halt (bytes : List Byte) : (s.setRand bytes).halt = s.halt := rfl
@[simp] theorem State.setRand_keys (bytes : List Byte) : (s.setRand bytes).keys = s.keys := rfl
@[simp] theorem State.setRand_rand (bytes : List Byte) : (s.setRand bytes).rand = bytes := rfl
@[simp] theorem State.setRand_draws (bytes : List Byte) : (s.setRand bytes).draws = s.draws := rfl
@[simp] theorem State.setRand_params (bytes : List Byte) :
    (s.setRand bytes).params = s.params := rfl
@[simp] theorem State.getV_setRand (bytes : List Byte) (r : RegIx) :
    (s.setRand bytes).getV r = s.getV r := rfl
@[simp] theorem State.byteAt_setRand (bytes : List Byte) (a : Nat) :
    (s.setRand bytes).byteAt a = s.byteAt a := rfl

/-! ## countDraw -/

@[simp] theorem State.countDraw_mem : s.countDraw.mem = s.mem := rfl
@[simp] theorem State.countDraw_v : s.countDraw.v = s.v := rfl
@[simp] theorem State.countDraw_index : s.countDraw.index = s.index := rfl
@[simp] theorem State.countDraw_pc : s.countDraw.pc = s.pc := rfl
@[simp] theorem State.countDraw_stack : s.countDraw.stack = s.stack := rfl
@[simp] theorem State.countDraw_sp : s.countDraw.sp = s.sp := rfl
@[simp] theorem State.countDraw_dt : s.countDraw.dt = s.dt := rfl
@[simp] theorem State.countDraw_st : s.countDraw.st = s.st := rfl
@[simp] theorem State.countDraw_disp : s.countDraw.disp = s.disp := rfl
@[simp] theorem State.countDraw_halt : s.countDraw.halt = s.halt := rfl
@[simp] theorem State.countDraw_keys : s.countDraw.keys = s.keys := rfl
@[simp] theorem State.countDraw_rand : s.countDraw.rand = s.rand := rfl
@[simp] theorem State.countDraw_draws : s.countDraw.draws = s.draws + 1 := rfl
@[simp] theorem State.countDraw_params : s.countDraw.params = s.params := rfl
@[simp] theorem State.getV_countDraw (r : RegIx) : s.countDraw.getV r = s.getV r := rfl
@[simp] theorem State.byteAt_countDraw (a : Nat) : s.countDraw.byteAt a = s.byteAt a := rfl

/-! ## setKeys -/

@[simp] theorem State.setKeys_mem (keys : Vector Bool 16) : (s.setKeys keys).mem = s.mem := rfl
@[simp] theorem State.setKeys_v (keys : Vector Bool 16) : (s.setKeys keys).v = s.v := rfl
@[simp] theorem State.setKeys_index (keys : Vector Bool 16) :
    (s.setKeys keys).index = s.index := rfl
@[simp] theorem State.setKeys_pc (keys : Vector Bool 16) : (s.setKeys keys).pc = s.pc := rfl
@[simp] theorem State.setKeys_stack (keys : Vector Bool 16) :
    (s.setKeys keys).stack = s.stack := rfl
@[simp] theorem State.setKeys_sp (keys : Vector Bool 16) : (s.setKeys keys).sp = s.sp := rfl
@[simp] theorem State.setKeys_dt (keys : Vector Bool 16) : (s.setKeys keys).dt = s.dt := rfl
@[simp] theorem State.setKeys_st (keys : Vector Bool 16) : (s.setKeys keys).st = s.st := rfl
@[simp] theorem State.setKeys_disp (keys : Vector Bool 16) : (s.setKeys keys).disp = s.disp := rfl
@[simp] theorem State.setKeys_halt (keys : Vector Bool 16) : (s.setKeys keys).halt = s.halt := rfl
@[simp] theorem State.setKeys_keys (keys : Vector Bool 16) : (s.setKeys keys).keys = keys := rfl
@[simp] theorem State.setKeys_rand (keys : Vector Bool 16) : (s.setKeys keys).rand = s.rand := rfl
@[simp] theorem State.setKeys_draws (keys : Vector Bool 16) :
    (s.setKeys keys).draws = s.draws := rfl
@[simp] theorem State.setKeys_params (keys : Vector Bool 16) :
    (s.setKeys keys).params = s.params := rfl
@[simp] theorem State.getV_setKeys (keys : Vector Bool 16) (r : RegIx) :
    (s.setKeys keys).getV r = s.getV r := rfl
@[simp] theorem State.byteAt_setKeys (keys : Vector Bool 16) (a : Nat) :
    (s.setKeys keys).byteAt a = s.byteAt a := rfl

/-! ## setRegBlock -/

@[simp] theorem State.setRegBlock_mem (bytes : List Byte) : (s.setRegBlock bytes).mem = s.mem := rfl
@[simp] theorem State.setRegBlock_v (bytes : List Byte) :
    (s.setRegBlock bytes).v = loadRegs s.v 0 bytes := rfl
@[simp] theorem State.setRegBlock_index (bytes : List Byte) :
    (s.setRegBlock bytes).index = s.index := rfl
@[simp] theorem State.setRegBlock_pc (bytes : List Byte) : (s.setRegBlock bytes).pc = s.pc := rfl
@[simp] theorem State.setRegBlock_stack (bytes : List Byte) :
    (s.setRegBlock bytes).stack = s.stack := rfl
@[simp] theorem State.setRegBlock_sp (bytes : List Byte) : (s.setRegBlock bytes).sp = s.sp := rfl
@[simp] theorem State.setRegBlock_dt (bytes : List Byte) : (s.setRegBlock bytes).dt = s.dt := rfl
@[simp] theorem State.setRegBlock_st (bytes : List Byte) : (s.setRegBlock bytes).st = s.st := rfl
@[simp] theorem State.setRegBlock_disp (bytes : List Byte) :
    (s.setRegBlock bytes).disp = s.disp := rfl
@[simp] theorem State.setRegBlock_halt (bytes : List Byte) :
    (s.setRegBlock bytes).halt = s.halt := rfl
@[simp] theorem State.setRegBlock_keys (bytes : List Byte) :
    (s.setRegBlock bytes).keys = s.keys := rfl
@[simp] theorem State.setRegBlock_rand (bytes : List Byte) :
    (s.setRegBlock bytes).rand = s.rand := rfl
@[simp] theorem State.setRegBlock_draws (bytes : List Byte) :
    (s.setRegBlock bytes).draws = s.draws := rfl
@[simp] theorem State.setRegBlock_params (bytes : List Byte) :
    (s.setRegBlock bytes).params = s.params := rfl
@[simp] theorem State.byteAt_setRegBlock (bytes : List Byte) (a : Nat) :
    (s.setRegBlock bytes).byteAt a = s.byteAt a := rfl

/-! ## bumpIndex -/

@[simp] theorem State.bumpIndex_mem (x : RegIx) : (s.bumpIndex x).mem = s.mem := rfl
@[simp] theorem State.bumpIndex_v (x : RegIx) : (s.bumpIndex x).v = s.v := rfl
@[simp] theorem State.bumpIndex_index (x : RegIx) :
    (s.bumpIndex x).index = s.index + BitVec.ofNat 16 (x.val + 1) := rfl
@[simp] theorem State.bumpIndex_pc (x : RegIx) : (s.bumpIndex x).pc = s.pc := rfl
@[simp] theorem State.bumpIndex_stack (x : RegIx) : (s.bumpIndex x).stack = s.stack := rfl
@[simp] theorem State.bumpIndex_sp (x : RegIx) : (s.bumpIndex x).sp = s.sp := rfl
@[simp] theorem State.bumpIndex_dt (x : RegIx) : (s.bumpIndex x).dt = s.dt := rfl
@[simp] theorem State.bumpIndex_st (x : RegIx) : (s.bumpIndex x).st = s.st := rfl
@[simp] theorem State.bumpIndex_disp (x : RegIx) : (s.bumpIndex x).disp = s.disp := rfl
@[simp] theorem State.bumpIndex_halt (x : RegIx) : (s.bumpIndex x).halt = s.halt := rfl
@[simp] theorem State.bumpIndex_keys (x : RegIx) : (s.bumpIndex x).keys = s.keys := rfl
@[simp] theorem State.bumpIndex_rand (x : RegIx) : (s.bumpIndex x).rand = s.rand := rfl
@[simp] theorem State.bumpIndex_draws (x : RegIx) : (s.bumpIndex x).draws = s.draws := rfl
@[simp] theorem State.bumpIndex_params (x : RegIx) : (s.bumpIndex x).params = s.params := rfl
@[simp] theorem State.getV_bumpIndex (x : RegIx) (r : RegIx) :
    (s.bumpIndex x).getV r = s.getV r := rfl
@[simp] theorem State.byteAt_bumpIndex (x : RegIx) (a : Nat) :
    (s.bumpIndex x).byteAt a = s.byteAt a := rfl

/-! ## skipIf -/

@[simp] theorem State.skipIf_mem (c : Bool) : (s.skipIf c).mem = s.mem := by cases c <;> rfl
@[simp] theorem State.skipIf_v (c : Bool) : (s.skipIf c).v = s.v := by cases c <;> rfl
@[simp] theorem State.skipIf_index (c : Bool) : (s.skipIf c).index = s.index := by cases c <;> rfl
theorem State.skipIf_pc (c : Bool) : (s.skipIf c).pc = if c then s.pc + 4 else s.pc + 2 := by
  cases c <;> rfl
@[simp] theorem State.skipIf_stack (c : Bool) : (s.skipIf c).stack = s.stack := by cases c <;> rfl
@[simp] theorem State.skipIf_sp (c : Bool) : (s.skipIf c).sp = s.sp := by cases c <;> rfl
@[simp] theorem State.skipIf_dt (c : Bool) : (s.skipIf c).dt = s.dt := by cases c <;> rfl
@[simp] theorem State.skipIf_st (c : Bool) : (s.skipIf c).st = s.st := by cases c <;> rfl
@[simp] theorem State.skipIf_disp (c : Bool) : (s.skipIf c).disp = s.disp := by cases c <;> rfl
@[simp] theorem State.skipIf_halt (c : Bool) : (s.skipIf c).halt = s.halt := by cases c <;> rfl
@[simp] theorem State.skipIf_keys (c : Bool) : (s.skipIf c).keys = s.keys := by cases c <;> rfl
@[simp] theorem State.skipIf_rand (c : Bool) : (s.skipIf c).rand = s.rand := by cases c <;> rfl
@[simp] theorem State.skipIf_draws (c : Bool) : (s.skipIf c).draws = s.draws := by cases c <;> rfl
@[simp] theorem State.skipIf_params (c : Bool) : (s.skipIf c).params = s.params := by cases c <;> rfl
@[simp] theorem State.getV_skipIf (c : Bool) (r : RegIx) : (s.skipIf c).getV r = s.getV r := by
  cases c <;> rfl
@[simp] theorem State.byteAt_skipIf (c : Bool) (a : Nat) : (s.skipIf c).byteAt a = s.byteAt a := by
  cases c <;> rfl

/-! ## flagThenResult -/

theorem flagThenResult_eq (x y : RegIx) (flag result : Byte → Byte → Byte) :
    ∃ a b : Byte, flagThenResult s x y flag result
      = (s.setV vf (flag (s.getV x) (s.getV y))).setV x (result a b) := by
  unfold flagThenResult
  cases s.params.vfAlias <;> exact ⟨_, _, rfl⟩

@[simp] theorem flagThenResult_mem (x y : RegIx) (flag result : Byte → Byte → Byte) :
    (flagThenResult s x y flag result).mem = s.mem := by
  obtain ⟨_, _, h⟩ := flagThenResult_eq s x y flag result
  rw [h]
  rfl
@[simp] theorem flagThenResult_index (x y : RegIx) (flag result : Byte → Byte → Byte) :
    (flagThenResult s x y flag result).index = s.index := by
  obtain ⟨_, _, h⟩ := flagThenResult_eq s x y flag result
  rw [h]
  rfl
@[simp] theorem flagThenResult_pc (x y : RegIx) (flag result : Byte → Byte → Byte) :
    (flagThenResult s x y flag result).pc = s.pc := by
  obtain ⟨_, _, h⟩ := flagThenResult_eq s x y flag result
  rw [h]
  rfl
@[simp] theorem flagThenResult_stack (x y : RegIx) (flag result : Byte → Byte → Byte) :
    (flagThenResult s x y flag result).stack = s.stack := by
  obtain ⟨_, _, h⟩ := flagThenResult_eq s x y flag result
  rw [h]
  rfl
@[simp] theorem flagThenResult_sp (x y : RegIx) (flag result : Byte → Byte → Byte) :
    (flagThenResult s x y flag result).sp = s.sp := by
  obtain ⟨_, _, h⟩ := flagThenResult_eq s x y flag result
  rw [h]
  rfl
@[simp] theorem flagThenResult_dt (x y : RegIx) (flag result : Byte → Byte → Byte) :
    (flagThenResult s x y flag result).dt = s.dt := by
  obtain ⟨_, _, h⟩ := flagThenResult_eq s x y flag result
  rw [h]
  rfl
@[simp] theorem flagThenResult_st (x y : RegIx) (flag result : Byte → Byte → Byte) :
    (flagThenResult s x y flag result).st = s.st := by
  obtain ⟨_, _, h⟩ := flagThenResult_eq s x y flag result
  rw [h]
  rfl
@[simp] theorem flagThenResult_disp (x y : RegIx) (flag result : Byte → Byte → Byte) :
    (flagThenResult s x y flag result).disp = s.disp := by
  obtain ⟨_, _, h⟩ := flagThenResult_eq s x y flag result
  rw [h]
  rfl
@[simp] theorem flagThenResult_halt (x y : RegIx) (flag result : Byte → Byte → Byte) :
    (flagThenResult s x y flag result).halt = s.halt := by
  obtain ⟨_, _, h⟩ := flagThenResult_eq s x y flag result
  rw [h]
  rfl
@[simp] theorem flagThenResult_keys (x y : RegIx) (flag result : Byte → Byte → Byte) :
    (flagThenResult s x y flag result).keys = s.keys := by
  obtain ⟨_, _, h⟩ := flagThenResult_eq s x y flag result
  rw [h]
  rfl
@[simp] theorem flagThenResult_rand (x y : RegIx) (flag result : Byte → Byte → Byte) :
    (flagThenResult s x y flag result).rand = s.rand := by
  obtain ⟨_, _, h⟩ := flagThenResult_eq s x y flag result
  rw [h]
  rfl
@[simp] theorem flagThenResult_draws (x y : RegIx) (flag result : Byte → Byte → Byte) :
    (flagThenResult s x y flag result).draws = s.draws := by
  obtain ⟨_, _, h⟩ := flagThenResult_eq s x y flag result
  rw [h]
  rfl
@[simp] theorem flagThenResult_params (x y : RegIx) (flag result : Byte → Byte → Byte) :
    (flagThenResult s x y flag result).params = s.params := by
  obtain ⟨_, _, h⟩ := flagThenResult_eq s x y flag result
  rw [h]
  rfl

/-! ## Reading a register after a write -/

@[simp] theorem State.getV_setV_same (x : RegIx) (b : Byte) : (s.setV x b).getV x = b := by
  simp [State.getV]

theorem State.getV_setV_ne (x r : RegIx) (b : Byte) (h : r ≠ x) :
    (s.setV x b).getV r = s.getV r := by
  have h' : x.val ≠ r.val := fun e => h (Fin.ext e.symm)
  simp [State.getV, h']

theorem State.getV_setV (x r : RegIx) (b : Byte) :
    (s.setV x b).getV r = if r = x then b else s.getV r := by
  by_cases h : r = x
  · subst h; simp
  · simp [h, State.getV_setV_ne]

end Sys2Proof.Machine
end

