-- ==== Sys2Proof/Laws/Display.lean ====
section
/-!
SUPPORT. The laws of the display's two accessors, and what one pixel of a sprite does.
-/

namespace Sys2Proof.Machine

open Sys2Proof

/-- Two displays with the same pixels are equal. -/
theorem Display.ext_getPixel {d d' : Display}
    (h : ∀ px py, Display.getPixel d px py = Display.getPixel d' px py) : d = d' := by
  refine Vector.ext fun r hr => Vector.ext fun c hc => ?_
  have := h c r
  simpa [Display.getPixel, Nat.mod_eq_of_lt hr, Nat.mod_eq_of_lt hc] using this

/-- A pixel read depends on the wrapped coordinates alone. -/
theorem Display.getPixel_congr (d : Display) {px py px' py' : Nat} (hx : px % 64 = px' % 64)
    (hy : py % 32 = py' % 32) : Display.getPixel d px py = Display.getPixel d px' py' := by
  simp only [Display.getPixel, hx, hy]

/-- A cell reads what was last written to it, and every other cell is left alone. -/
theorem Display.getPixel_setPixel (d : Display) (cx : Fin 64) (cy : Fin 32) (b : Bool)
    (px py : Nat) :
    Display.getPixel (Display.setPixel d cx cy b) px py
      = if px % 64 = cx.val ∧ py % 32 = cy.val then b else Display.getPixel d px py := by
  unfold Display.getPixel Display.setPixel
  by_cases hy : py % 32 = cy.val
  · by_cases hx : px % 64 = cx.val
    · simp [hx, hy]
    · simp [hx, hy, Vector.getElem_set_ne _ _ (Ne.symm hx)]
  · simp [hy, Vector.getElem_set_ne _ _ (Ne.symm hy)]

@[simp] theorem Display.getPixel_clear (px py : Nat) :
    Display.getPixel Display.clear px py = false := by
  simp [Display.getPixel, Display.clear]

/-- One sprite pixel inverts its wrapped cell when its bit is 1 and leaves every other cell. -/
theorem getPixel_drawPixel (sx sy row : Nat) (byte : Byte) (acc : Display × Bool) (col px py : Nat) :
    Display.getPixel (drawPixel sx sy row byte acc col).1 px py
      = if px % 64 = (sx + col) % 64 ∧ py % 32 = (sy + row) % 32 then
          (Display.getPixel acc.1 px py ^^ byte.getLsbD (7 - col))
        else Display.getPixel acc.1 px py := by
  rw [drawPixel, Display.getPixel_setPixel]
  split
  · rename_i h
    rw [Display.getPixel_congr acc.1 h.1.symm h.2.symm]
  · rfl

/-- One sprite pixel raises the collision flag when its bit is 1 over a set cell. -/
theorem drawPixel_collision (sx sy row : Nat) (byte : Byte) (acc : Display × Bool) (col : Nat) :
    (drawPixel sx sy row byte acc col).2
      = (acc.2 || (Display.getPixel acc.1 (sx + col) (sy + row) && byte.getLsbD (7 - col))) := rfl

end Sys2Proof.Machine
end

