-- ==== Sys2Proof/Laws/Memory.lean ====
section
/-!
SUPPORT. The laws of memory: a read after a write, and the canonical form, which every memory
operation keeps and which makes equal memories equal data.
-/

namespace Sys2Proof.Machine

open Sys2Proof

/-! ## Reading one entry -/

@[simp] theorem Memory.read_nil (a : Nat) : Memory.read [] a = resetByte a := rfl

theorem Memory.read_cons_self (m : Memory) (b : Nat) (w : Byte) :
    Memory.read ((b, w) :: m) b = w := by
  simp [Memory.read]

theorem Memory.read_cons_ne (m : Memory) {a b : Nat} (w : Byte) (h : a ≠ b) :
    Memory.read ((b, w) :: m) a = Memory.read m a := by
  simp [Memory.read, h]

theorem Memory.wfFrom_cons (lo b : Nat) (w : Byte) (m : Memory) :
    Memory.wfFrom lo ((b, w) :: m) = true ↔
      lo ≤ b ∧ b ≤ Config.maxAddr ∧ w ≠ resetByte b ∧ Memory.wfFrom (b + 1) m = true := by
  simp [Memory.wfFrom, and_assoc]

theorem Memory.wfFrom_mono {lo lo' : Nat} {m : Memory} (h : lo' ≤ lo)
    (hm : Memory.wfFrom lo m = true) : Memory.wfFrom lo' m = true := by
  cases m with
  | nil => rfl
  | cons e m =>
    obtain ⟨b, w⟩ := e
    rw [Memory.wfFrom_cons] at hm ⊢
    exact ⟨by omega, hm.2⟩

/-- Below the first address a canonical memory lists nothing. -/
theorem Memory.read_below {lo a : Nat} {m : Memory} (hm : Memory.wfFrom lo m = true) (h : a < lo) :
    Memory.read m a = resetByte a := by
  induction m generalizing lo with
  | nil => rfl
  | cons e m ih =>
    obtain ⟨b, w⟩ := e
    rw [Memory.wfFrom_cons] at hm
    rw [Memory.read_cons_ne m w (by omega)]
    exact ih hm.2.2.2 (by omega)

/-! ## insert and erase -/

theorem Memory.read_insert_same (m : Memory) (a : Nat) (v : Byte) :
    Memory.read (Memory.insert m a v) a = v := by
  induction m with
  | nil => simp [Memory.insert, Memory.read]
  | cons e m ih =>
    obtain ⟨b, w⟩ := e
    unfold Memory.insert
    split
    · exact Memory.read_cons_self _ _ _
    · split
      · exact Memory.read_cons_self _ _ _
      · rw [Memory.read_cons_ne _ _ (by omega)]
        exact ih

theorem Memory.read_insert_ne (m : Memory) {a c : Nat} (v : Byte) (h : c ≠ a) :
    Memory.read (Memory.insert m a v) c = Memory.read m c := by
  induction m with
  | nil => simp [Memory.insert, Memory.read, h]
  | cons e m ih =>
    obtain ⟨b, w⟩ := e
    unfold Memory.insert
    split
    · exact Memory.read_cons_ne _ _ h
    · split
      · subst_vars
        rw [Memory.read_cons_ne _ _ h, Memory.read_cons_ne _ _ h]
      · by_cases hb : c = b
        · subst hb
          rw [Memory.read_cons_self, Memory.read_cons_self]
        · rw [Memory.read_cons_ne _ _ hb, Memory.read_cons_ne _ _ hb, ih]

theorem Memory.wfFrom_insert {lo a : Nat} {m : Memory} {v : Byte}
    (hm : Memory.wfFrom lo m = true) (hlo : lo ≤ a) (ha : a ≤ Config.maxAddr)
    (hv : v ≠ resetByte a) : Memory.wfFrom lo (Memory.insert m a v) = true := by
  induction m generalizing lo with
  | nil => simpa [Memory.insert, Memory.wfFrom] using ⟨⟨hlo, ha⟩, hv⟩
  | cons e m ih =>
    obtain ⟨b, w⟩ := e
    have hcons := (Memory.wfFrom_cons lo b w m).1 hm
    unfold Memory.insert
    split
    · rename_i hlt
      rw [Memory.wfFrom_cons]
      exact ⟨hlo, ha, hv, (Memory.wfFrom_cons _ b w m).2 ⟨by omega, hcons.2⟩⟩
    · split
      · subst_vars
        rw [Memory.wfFrom_cons]
        exact ⟨hlo, ha, hv, hcons.2.2.2⟩
      · rw [Memory.wfFrom_cons]
        exact ⟨hcons.1, hcons.2.1, hcons.2.2.1, ih hcons.2.2.2 (by omega)⟩

theorem Memory.wfFrom_erase {lo : Nat} {m : Memory} (a : Nat) (hm : Memory.wfFrom lo m = true) :
    Memory.wfFrom lo (Memory.erase m a) = true := by
  induction m generalizing lo with
  | nil => rfl
  | cons e m ih =>
    obtain ⟨b, w⟩ := e
    have hcons := (Memory.wfFrom_cons lo b w m).1 hm
    unfold Memory.erase
    split
    · exact Memory.wfFrom_mono (by omega) hcons.2.2.2
    · rw [Memory.wfFrom_cons]
      exact ⟨hcons.1, hcons.2.1, hcons.2.2.1, ih hcons.2.2.2⟩

theorem Memory.read_erase_ne (m : Memory) {a c : Nat} (h : c ≠ a) :
    Memory.read (Memory.erase m a) c = Memory.read m c := by
  induction m with
  | nil => rfl
  | cons e m ih =>
    obtain ⟨b, w⟩ := e
    unfold Memory.erase
    split
    · subst_vars
      rw [Memory.read_cons_ne _ _ h]
    · by_cases hb : c = b
      · subst hb
        rw [Memory.read_cons_self, Memory.read_cons_self]
      · rw [Memory.read_cons_ne _ _ hb, Memory.read_cons_ne _ _ hb, ih]

theorem Memory.read_erase_same {lo : Nat} {m : Memory} (a : Nat) (hm : Memory.wfFrom lo m = true) :
    Memory.read (Memory.erase m a) a = resetByte a := by
  induction m generalizing lo with
  | nil => rfl
  | cons e m ih =>
    obtain ⟨b, w⟩ := e
    have hcons := (Memory.wfFrom_cons lo b w m).1 hm
    unfold Memory.erase
    split
    · subst_vars
      exact Memory.read_below hcons.2.2.2 (by omega)
    · rename_i h
      rw [Memory.read_cons_ne _ _ h]
      exact ih hcons.2.2.2

/-! ## write -/

/-- A write leaves every other address alone, in every memory. -/
theorem Memory.read_write_ne (m : Memory) {a c : Nat} (v : Byte) (h : c ≠ a) :
    Memory.read (Memory.write m a v) c = Memory.read m c := by
  unfold Memory.write
  split
  · exact Memory.read_erase_ne m h
  · exact Memory.read_insert_ne m v h

/-- A read after a write to the same address gives the value written. -/
theorem Memory.read_write_same {m : Memory} (a : Nat) (v : Byte) (hm : Memory.wf m = true) :
    Memory.read (Memory.write m a v) a = v := by
  unfold Memory.write
  split
  · rename_i h
    rw [h]
    exact Memory.read_erase_same a hm
  · exact Memory.read_insert_same m a v

/-- A write within the address space keeps the canonical form. -/
theorem Memory.wf_write {m : Memory} {a : Nat} (v : Byte) (hm : Memory.wf m = true)
    (ha : a ≤ Config.maxAddr) : Memory.wf (Memory.write m a v) = true := by
  unfold Memory.write
  split
  · exact Memory.wfFrom_erase a hm
  · exact Memory.wfFrom_insert hm (Nat.zero_le a) ha ‹_›

/-! ## writeBytes -/

theorem Memory.wf_writeBytes {m : Memory} {a : Nat} {bytes : List Byte} (hm : Memory.wf m = true)
    (ha : a + bytes.length ≤ Config.maxAddr + 1) :
    Memory.wf (Memory.writeBytes m a bytes) = true := by
  induction bytes generalizing m a with
  | nil => exact hm
  | cons v vs ih =>
    simp only [List.length_cons] at ha
    exact ih (Memory.wf_write v hm (by omega)) (by omega)

/-- A block write leaves every address outside the block alone, in every memory. -/
theorem Memory.read_writeBytes_ne (m : Memory) {a c : Nat} (bytes : List Byte)
    (h : c < a ∨ a + bytes.length ≤ c) :
    Memory.read (Memory.writeBytes m a bytes) c = Memory.read m c := by
  induction bytes generalizing m a with
  | nil => rfl
  | cons v vs ih =>
    simp only [List.length_cons] at h
    have := ih (m := Memory.write m a v) (a := a + 1) (by omega)
    rw [Memory.writeBytes, this]
    exact Memory.read_write_ne m v (by omega)

/-- Inside the block each address reads the byte written to it. -/
theorem Memory.read_writeBytes_in {m : Memory} {a : Nat} {bytes : List Byte}
    (hm : Memory.wf m = true) (ha : a + bytes.length ≤ Config.maxAddr + 1) (k : Nat)
    (hk : k < bytes.length) : Memory.read (Memory.writeBytes m a bytes) (a + k) = bytes[k] := by
  induction bytes generalizing m a k with
  | nil => simp at hk
  | cons v vs ih =>
    simp only [List.length_cons] at ha hk
    cases k with
    | zero =>
      rw [Memory.writeBytes, Memory.read_writeBytes_ne _ vs (by omega)]
      simpa using Memory.read_write_same a v hm
    | succ k =>
      have := ih (m := Memory.write m a v) (a := a + 1) (Memory.wf_write v hm (by omega))
        (by omega) k (by omega)
      rw [Memory.writeBytes, show a + (k + 1) = a + 1 + k by omega, this]
      simp

/-! ## The canonical form decides equality -/

theorem Memory.ext_wfFrom {lo : Nat} {m m' : Memory} (hm : Memory.wfFrom lo m = true)
    (hm' : Memory.wfFrom lo m' = true) (h : ∀ a, Memory.read m a = Memory.read m' a) : m = m' := by
  induction m generalizing lo m' with
  | nil =>
    cases m' with
    | nil => rfl
    | cons e m' =>
      obtain ⟨b, w⟩ := e
      have hc := (Memory.wfFrom_cons lo b w m').1 hm'
      have := h b
      rw [Memory.read_cons_self, Memory.read_nil] at this
      exact absurd this.symm hc.2.2.1
  | cons e m ih =>
    obtain ⟨b, w⟩ := e
    have hc := (Memory.wfFrom_cons lo b w m).1 hm
    cases m' with
    | nil =>
      have := h b
      rw [Memory.read_cons_self, Memory.read_nil] at this
      exact absurd this hc.2.2.1
    | cons e' m' =>
      obtain ⟨b', w'⟩ := e'
      have hc' := (Memory.wfFrom_cons lo b' w' m').1 hm'
      have hb : b = b' := by
        rcases Nat.lt_trichotomy b b' with hlt | heq | hgt
        · have := h b
          rw [Memory.read_cons_self, Memory.read_cons_ne _ _ (by omega),
            Memory.read_below hc'.2.2.2 (by omega)] at this
          exact absurd this hc.2.2.1
        · exact heq
        · have := h b'
          rw [Memory.read_cons_self, Memory.read_cons_ne _ _ (by omega),
            Memory.read_below hc.2.2.2 (by omega)] at this
          exact absurd this.symm hc'.2.2.1
      subst hb
      have hw : w = w' := by
        have := h b
        rwa [Memory.read_cons_self, Memory.read_cons_self] at this
      subst hw
      have : m = m' := by
        refine ih hc.2.2.2 hc'.2.2.2 fun a => ?_
        by_cases ha : a = b
        · subst ha
          rw [Memory.read_below hc.2.2.2 (by omega), Memory.read_below hc'.2.2.2 (by omega)]
        · have := h a
          rwa [Memory.read_cons_ne _ _ ha, Memory.read_cons_ne _ _ ha] at this
      rw [this]

end Sys2Proof.Machine
end

