-- ==== Sys2Proof/Laws/Ops.lean ====
section
/-!
SUPPORT. One lemma per shared operation that says everything it can do, for proofs to cite instead
of unfolding it.
-/

namespace Sys2Proof.Machine

open Sys2Proof

/-! ## Addresses -/

@[simp] theorem addressesFrom_length (base count : Nat) :
    (addressesFrom base count).length = count := by
  simp [addressesFrom]

@[simp] theorem mem_addressesFrom {base count a : Nat} :
    a ∈ addressesFrom base count ↔ base ≤ a ∧ a < base + count := by
  simp only [addressesFrom, List.mem_map, List.mem_range]
  constructor
  · rintro ⟨k, hk, rfl⟩
    omega
  · rintro ⟨h1, h2⟩
    exact ⟨a - base, by omega, by omega⟩

theorem addressesFrom_succ (base count : Nat) :
    addressesFrom base (count + 1) = base :: addressesFrom (base + 1) count := by
  simp only [addressesFrom, List.range_succ_eq_map, List.map_cons, List.map_map, Nat.add_zero]
  congr 1
  apply List.map_congr_left
  intro k _
  simp only [Function.comp_apply]
  omega

/-- No address is out of range exactly when the block ends at 0xFFF or below, or is empty. -/
theorem lowestOutOfRange_eq_none {base count : Nat} :
    lowestOutOfRange (addressesFrom base count) = none ↔
      count = 0 ∨ base + count ≤ Config.maxAddr + 1 := by
  simp only [lowestOutOfRange, List.find?_eq_none, mem_addressesFrom, decide_eq_true_eq]
  constructor
  · intro h
    by_cases hc : count = 0
    · exact .inl hc
    · have := h (base + count - 1) (by omega)
      omega
  · intro h a ha
    omega

/-- The lowest out-of-range address of a block is its base, or 0x1000 when the base is in range. -/
theorem lowestOutOfRange_eq_some {base count a : Nat} :
    lowestOutOfRange (addressesFrom base count) = some a ↔
      count ≠ 0 ∧ Config.maxAddr + 1 < base + count ∧ a = max base (Config.maxAddr + 1) := by
  induction count generalizing base with
  | zero => simp [lowestOutOfRange, addressesFrom]
  | succ count ih =>
    simp only [lowestOutOfRange] at ih
    rw [lowestOutOfRange, addressesFrom_succ, List.find?_cons]
    by_cases hb : Config.maxAddr < base
    · simp only [hb, decide_true, Option.some.injEq]
      constructor
      · rintro rfl
        exact ⟨by omega, by omega, by omega⟩
      · rintro ⟨_, _, rfl⟩
        omega
    · simp only [hb, decide_false]
      rw [ih]
      constructor
      · rintro ⟨h1, h2, rfl⟩
        exact ⟨by omega, by omega, by omega⟩
      · rintro ⟨_, h2, rfl⟩
        exact ⟨by omega, by omega, by omega⟩

/-- No address is in the font region exactly when the block starts above it, or is empty. -/
theorem lowestFontAddress_eq_none {base count : Nat} :
    lowestFontAddress (addressesFrom base count) = none ↔ count = 0 ∨ Config.fontEnd ≤ base := by
  simp only [lowestFontAddress, List.find?_eq_none, mem_addressesFrom, decide_eq_true_eq]
  constructor
  · intro h
    by_cases hc : count = 0
    · exact .inl hc
    · have := h base (by omega)
      omega
  · intro h a ha
    omega

/-- The lowest font address of a block that starts in the font region is its base. -/
theorem lowestFontAddress_eq_some {base count a : Nat} :
    lowestFontAddress (addressesFrom base count) = some a ↔
      count ≠ 0 ∧ base < Config.fontEnd ∧ a = base := by
  cases count with
  | zero => simp [lowestFontAddress, addressesFrom]
  | succ count =>
    rw [lowestFontAddress, addressesFrom_succ, List.find?_cons]
    by_cases hb : base < Config.fontEnd
    · simp [hb, eq_comm]
    · have hn : List.find? (fun a => decide (a < Config.fontEnd)) (addressesFrom (base + 1) count)
          = none := lowestFontAddress_eq_none.2 (.inr (by omega))
      simp only [hb, decide_false]
      rw [hn]
      simp

/-! ## loadThen and storeThen -/

theorem State.bytesFrom_length (s : State) (base count : Nat) :
    (s.bytesFrom base count).length = count := by
  simp [State.bytesFrom]

theorem State.bytesFrom_getElem (s : State) (base count k : Nat) (h : k < count) :
    (s.bytesFrom base count)[k]'(by rw [s.bytesFrom_length]; exact h) = s.byteAt (base + k) := by
  simp [State.bytesFrom, addressesFrom]

/-- A load whose block is in range goes on with the bytes. -/
theorem loadThen_inRange (s : State) {base count : Nat} (k : List Byte → Result)
    (h : count = 0 ∨ base + count ≤ Config.maxAddr + 1) :
    loadThen s base count k = k (s.bytesFrom base count) := by
  rw [loadThen, lowestOutOfRange_eq_none.2 h]

/-- A load whose block leaves the address space raises the lowest address that does. -/
theorem loadThen_outOfRange (s : State) {base count : Nat} (k : List Byte → Result)
    (hc : count ≠ 0) (h : Config.maxAddr + 1 < base + count) :
    loadThen s base count k = .fault (.addressOutOfRange (max base (Config.maxAddr + 1))) := by
  rw [loadThen, lowestOutOfRange_eq_some.2 ⟨hc, h, rfl⟩]
  rfl

/-- Everything a load can do. -/
theorem loadThen_cases (s : State) (base count : Nat) (k : List Byte → Result) :
    (loadThen s base count k = k (s.bytesFrom base count) ∧
        (count = 0 ∨ base + count ≤ Config.maxAddr + 1)) ∨
      (loadThen s base count k = .fault (.addressOutOfRange (max base (Config.maxAddr + 1))) ∧
        count ≠ 0 ∧ Config.maxAddr + 1 < base + count) := by
  by_cases h : count = 0 ∨ base + count ≤ Config.maxAddr + 1
  · exact .inl ⟨loadThen_inRange s k h, h⟩
  · exact .inr ⟨loadThen_outOfRange s k (by omega) (by omega), by omega, by omega⟩

/-- A store in range, above the font region or under FONT_WRITE = store, writes its bytes. -/
theorem storeThen_next (s : State) {base : Nat} {bytes : List Byte} (k : State → Result)
    (h : base + bytes.length ≤ Config.maxAddr + 1)
    (hf : Config.fontEnd ≤ base ∨ s.params.fontWrite = .store) :
    storeThen s base bytes k = k (s.setMem (Memory.writeBytes s.mem base bytes)) := by
  rw [storeThen, lowestOutOfRange_eq_none.2 (.inr h)]
  rcases hf with hf | hf
  · rw [lowestFontAddress_eq_none.2 (.inr hf)]
    cases s.params.fontWrite <;> rfl
  · rw [hf]

/-- A store whose block leaves the address space raises the lowest address that does. -/
theorem storeThen_outOfRange (s : State) {base : Nat} {bytes : List Byte} (k : State → Result)
    (hc : bytes ≠ []) (h : Config.maxAddr + 1 < base + bytes.length) :
    storeThen s base bytes k = .fault (.addressOutOfRange (max base (Config.maxAddr + 1))) := by
  have hl : bytes.length ≠ 0 := by simpa using hc
  rw [storeThen, lowestOutOfRange_eq_some.2 ⟨hl, h, rfl⟩]
  rfl

/-- A store in range that starts in the font region is refused under FONT_WRITE = refuse. -/
theorem storeThen_font (s : State) {base : Nat} {bytes : List Byte} (k : State → Result)
    (hc : bytes ≠ []) (h : base + bytes.length ≤ Config.maxAddr + 1) (hb : base < Config.fontEnd)
    (hf : s.params.fontWrite = .refuse) :
    storeThen s base bytes k = .refused (.fontWrite base) := by
  have hl : bytes.length ≠ 0 := by simpa using hc
  rw [storeThen, lowestOutOfRange_eq_none.2 (.inr h), lowestFontAddress_eq_some.2 ⟨hl, hb, rfl⟩, hf]

/-- Everything a store of at least one byte can do. -/
theorem storeThen_cases (s : State) (base : Nat) (bytes : List Byte) (k : State → Result)
    (hc : bytes ≠ []) :
    (storeThen s base bytes k = k (s.setMem (Memory.writeBytes s.mem base bytes)) ∧
        base + bytes.length ≤ Config.maxAddr + 1 ∧
        (Config.fontEnd ≤ base ∨ s.params.fontWrite = .store)) ∨
      (storeThen s base bytes k = .fault (.addressOutOfRange (max base (Config.maxAddr + 1))) ∧
        Config.maxAddr + 1 < base + bytes.length) ∨
      (storeThen s base bytes k = .refused (.fontWrite base) ∧
        base + bytes.length ≤ Config.maxAddr + 1 ∧ base < Config.fontEnd ∧
        s.params.fontWrite = .refuse) := by
  by_cases h : base + bytes.length ≤ Config.maxAddr + 1
  · by_cases hf : Config.fontEnd ≤ base ∨ s.params.fontWrite = .store
    · exact .inl ⟨storeThen_next s k h hf, h, hf⟩
    · have hr : s.params.fontWrite = .refuse := by
        cases hp : s.params.fontWrite with
        | refuse => rfl
        | store => exact absurd (.inr hp) hf
      exact .inr (.inr ⟨storeThen_font s k hc h (by omega) hr, h, by omega, hr⟩)
  · exact .inr (.inl ⟨storeThen_outOfRange s k hc (by omega), by omega⟩)

/-! ## The call stack -/

theorem pushThen_room (s : State) (a : Word) (k : State → Result) (h : s.sp.val < 16) :
    pushThen s a k = k (s.setStack (s.stack.set s.sp.val a) ⟨s.sp.val + 1, by omega⟩) := by
  rw [pushThen, dif_pos h]

theorem pushThen_full (s : State) (a : Word) (k : State → Result) (h : s.sp.val = 16) :
    pushThen s a k = .fault .stackOverflow := by
  rw [pushThen, dif_neg (by omega)]
  rfl

theorem popThen_some (s : State) (k : Word → State → Result) (h : 0 < s.sp.val) :
    popThen s k = k (s.stack[s.sp.val - 1]'(by omega))
      (s.setStack s.stack ⟨s.sp.val - 1, by omega⟩) := by
  rw [popThen, dif_pos h]

theorem popThen_empty (s : State) (k : Word → State → Result) (h : s.sp.val = 0) :
    popThen s k = .fault .stackUnderflow := by
  rw [popThen, dif_neg (by omega)]
  rfl

/-! ## Free draws -/

/-- A random byte is the next one lined up, or a free value; only the draw's own fields change. -/
theorem State.drawByte_cases (s : State) :
    (∃ r rest, s.rand = r :: rest ∧ s.drawByte = (r, s.setRand rest)) ∨
      (s.rand = [] ∧ s.drawByte = (Config.freeByte s.draws, s.countDraw)) := by
  unfold State.drawByte
  cases h : s.rand with
  | nil => exact .inr ⟨rfl, rfl⟩
  | cons r rest => exact .inl ⟨r, rest, rfl, rfl⟩

theorem State.drawPressed_key (s : State) (k : Byte) (h : k.toNat < 16) :
    s.drawPressed k = (s.keys[k.toNat], s) := by
  rw [State.drawPressed, dif_pos h]

theorem State.drawPressed_free (s : State) (k : Byte) (h : 16 ≤ k.toNat) :
    s.drawPressed k = (Config.freeKeyLevel s.draws, s.countDraw) := by
  rw [State.drawPressed, dif_neg (by omega)]

@[simp] theorem State.mem_pressedKeys (s : State) (k : KeyIx) :
    k ∈ s.pressedKeys ↔ s.keys[k.val] = true := by
  simp [State.pressedKeys]

/-- The wait ends with no key exactly when none is pressed. -/
theorem State.drawKey_eq_none (s : State) : s.drawKey = none ↔ s.pressedKeys = [] := by
  unfold State.drawKey
  split <;> simp_all

/-- The chosen key is pressed, and only the draw counter may change. -/
theorem State.drawKey_some (s : State) {k : KeyIx} {t : State} (h : s.drawKey = some (k, t)) :
    s.keys[k.val] = true ∧ (t = s ∨ t = s.countDraw) := by
  unfold State.drawKey at h
  split at h
  · cases h
  · rename_i k' hk
    cases h
    exact ⟨(s.mem_pressedKeys k).1 (by rw [hk]; exact List.mem_singleton.2 rfl), .inl rfl⟩
  · rename_i k' ks _ hk
    simp only [Option.some.injEq, Prod.mk.injEq] at h
    obtain ⟨rfl, rfl⟩ := h
    refine ⟨(s.mem_pressedKeys _).1 ?_, .inr rfl⟩
    have hlt : Config.freeKeyChoice s.draws % (k' :: ks).length < (k' :: ks).length :=
      Nat.mod_lt _ (by simp)
    rw [hk, List.getD_eq_getElem _ _ hlt]
    exact List.getElem_mem _

/-! ## Fetch -/

theorem State.fetch_outOfRange (s : State) (h : Config.maxAddr ≤ s.pc.toNat) :
    s.fetch = .error (.addressOutOfRange (max s.pc.toNat (Config.maxAddr + 1))) := by
  rw [State.fetch, lowestOutOfRange_eq_some.2 ⟨by decide, by omega, rfl⟩]

theorem State.fetch_ok (s : State) {i : Instr} (h : s.pc.toNat < Config.maxAddr)
    (hd : decodeWord s.wordAtPc = .ok i) : s.fetch = .ok i := by
  rw [State.fetch, lowestOutOfRange_eq_none.2 (.inr (by omega)), hd]

theorem State.fetch_unknown (s : State) {e : DecodeError} (h : s.pc.toNat < Config.maxAddr)
    (hd : decodeWord s.wordAtPc = .error e) :
    s.fetch = .error (.unknownInstruction s.wordAtPc) := by
  rw [State.fetch, lowestOutOfRange_eq_none.2 (.inr (by omega)), hd]

/-- A fetch succeeds only below 0xFFF, with the decoded word at PC. -/
theorem State.fetch_eq_ok (s : State) {i : Instr} (h : s.fetch = .ok i) :
    s.pc.toNat < Config.maxAddr ∧ decodeWord s.wordAtPc = .ok i := by
  by_cases hp : s.pc.toNat < Config.maxAddr
  · cases hd : decodeWord s.wordAtPc with
    | ok j =>
      rw [s.fetch_ok hp hd] at h
      cases h
      exact ⟨hp, rfl⟩
    | error e =>
      rw [s.fetch_unknown hp hd] at h
      cases h
  · rw [s.fetch_outOfRange (by omega)] at h
    cases h

/-! ## Step -/

/-- Everything a step can do. -/
theorem step_next {s t : State} (h : step s = .next t) :
    s.halt = none ∧ s.pc.toNat < Config.maxAddr ∧
      ∃ i, decodeWord s.wordAtPc = .ok i ∧ exec i s = .next t := by
  unfold step at h
  cases hh : s.halt with
  | some f =>
    rw [hh] at h
    cases h
  | none =>
    rw [hh] at h
    cases hf : s.fetch with
    | error f =>
      simp only [hf] at h
      cases h
    | ok i =>
      simp only [hf] at h
      obtain ⟨hp, hd⟩ := s.fetch_eq_ok hf
      exact ⟨rfl, hp, i, hd, h⟩

end Sys2Proof.Machine
end

