-- ==== Sys2Proof/Laws/Operands.lean ====
section
/-!
SUPPORT. One lemma per operand form and per flag operation, for proofs to cite instead of
unfolding them.
-/

namespace Sys2Proof.Machine

open Sys2Proof

/-! ## Immediates and the index register -/

@[simp] theorem addrOperand_toNat (nnn : BitVec 12) : (addrOperand nnn).toNat = nnn.toNat := by
  have := nnn.isLt
  simp [addrOperand]
  omega

@[simp] theorem byteOperand_toNat (b : Byte) : (byteOperand b).toNat = b.toNat := by
  have := b.isLt
  simp [byteOperand]
  omega

/-- The index advances by the number of registers, modulo 65536. -/
theorem State.bumpIndex_toNat (s : State) (x : RegIx) :
    (s.bumpIndex x).index.toNat = (s.index.toNat + x.val + 1) % 65536 := by
  simp [State.bumpIndex]
  omega

@[simp] theorem decimalDigits_length (b : Byte) : (decimalDigits b).length = 3 := rfl

/-! ## Register blocks -/

@[simp] theorem State.regBlock_length (s : State) (x : RegIx) :
    (s.regBlock x).length = x.val + 1 := by
  simp [State.regBlock]

theorem State.regBlock_ne_nil (s : State) (x : RegIx) : s.regBlock x ≠ [] := by
  intro h
  have := s.regBlock_length x
  rw [h] at this
  simp at this

theorem State.regBlock_getElem (s : State) (x k : RegIx) (h : k ≤ x) :
    (s.regBlock x)[k.val]'(by rw [s.regBlock_length]; exact Nat.lt_succ_of_le h) = s.getV k := by
  simp [State.regBlock, State.getV]

theorem loadRegs_getElem (v : Vector Byte 16) (k : Nat) (bytes : List Byte) (r : Nat) (hr : r < 16) :
    (loadRegs v k bytes)[r] = if h : k ≤ r ∧ r < k + bytes.length then bytes[r - k] else v[r] := by
  induction bytes generalizing v k with
  | nil => simp [loadRegs]
  | cons b bs ih =>
    rw [loadRegs, ih]
    by_cases h : r = k
    · subst h
      simp
    · by_cases h2 : k + 1 ≤ r ∧ r < k + 1 + bs.length
      · have h3 : k ≤ r ∧ r < k + (b :: bs).length := by
          simp only [List.length_cons]
          omega
        rw [dif_pos h2, dif_pos h3]
        simp [show r - k = (r - (k + 1)) + 1 by omega]
      · have h3 : ¬ (k ≤ r ∧ r < k + (b :: bs).length) := by
          simp only [List.length_cons]
          omega
        rw [dif_neg h2, dif_neg h3]
        exact Vector.getElem_setIfInBounds_ne hr (Ne.symm h)

/-- A register within the loaded block holds its byte, every other register is as before. -/
theorem State.getV_setRegBlock (s : State) (bytes : List Byte) (r : RegIx) :
    (s.setRegBlock bytes).getV r = bytes.getD r.val (s.getV r) := by
  simp only [State.getV, State.setRegBlock, loadRegs_getElem, List.getD, Nat.zero_le, true_and,
    Nat.zero_add, Nat.sub_zero]
  split <;> simp [*]

/-! ## Flags -/

@[simp] theorem b2v_toNat (c : Bool) : (b2v c).toNat = if c then 1 else 0 := by cases c <;> rfl

theorem noBorrowFlag_toNat (a b : Byte) :
    (noBorrowFlag a b).toNat = if b.toNat ≤ a.toNat then 1 else 0 := by
  simp [noBorrowFlag]

theorem carryFlag_toNat (a b : Byte) : (carryFlag a b).toNat = (a.toNat + b.toNat) / 256 := by
  have := a.isLt
  have := b.isLt
  simp only [carryFlag, b2v_toNat, decide_eq_true_eq]
  split <;> omega

/-- Unless VF is the destination, VF holds the flag. -/
theorem getV_vf_flagThenResult (s : State) {x : RegIx} (y : RegIx) (f g : Byte → Byte → Byte)
    (h : x ≠ vf) : (flagThenResult s x y f g).getV vf = f (s.getV x) (s.getV y) := by
  unfold flagThenResult
  cases s.params.vfAlias <;> simp [State.getV_setV_ne _ _ _ _ (Ne.symm h)]

/-- Under `sequential` the result reads the registers after the flag write. -/
theorem getV_flagThenResult_sequential (s : State) (x y : RegIx) (f g : Byte → Byte → Byte)
    (h : s.params.vfAlias = .sequential) :
    (flagThenResult s x y f g).getV x =
      g ((s.setV vf (f (s.getV x) (s.getV y))).getV x)
        ((s.setV vf (f (s.getV x) (s.getV y))).getV y) := by
  simp [flagThenResult, h]

/-- Under `snapshot` the result reads the registers before the flag write. -/
theorem getV_flagThenResult_snapshot (s : State) (x y : RegIx) (f g : Byte → Byte → Byte)
    (h : s.params.vfAlias = .snapshot) :
    (flagThenResult s x y f g).getV x = g (s.getV x) (s.getV y) := by
  simp [flagThenResult, h]

/-- Where neither operand is VF the two readings agree. -/
theorem getV_flagThenResult_of_ne (s : State) {x y : RegIx} (f g : Byte → Byte → Byte)
    (hx : x ≠ vf) (hy : y ≠ vf) :
    (flagThenResult s x y f g).getV x = g (s.getV x) (s.getV y) := by
  cases hp : s.params.vfAlias with
  | sequential =>
    rw [getV_flagThenResult_sequential s x y f g hp, State.getV_setV_ne _ _ _ _ hx,
      State.getV_setV_ne _ _ _ _ hy]
  | snapshot => exact getV_flagThenResult_snapshot s x y f g hp

end Sys2Proof.Machine
end

