-- ==== Sys2Proof/Laws/HostActions.lean ====
section
/-!
SUPPORT. What the host's actions leave: the countdown, the memory of a reset, and runs.
-/

namespace Sys2Proof.Machine

open Sys2Proof

@[simp] theorem countDown_toNat (b : Byte) : (countDown b).toNat = b.toNat - 1 := by
  have hb := b.isLt
  unfold countDown
  split
  · subst_vars
    rfl
  · rename_i h
    have h0 : b.toNat ≠ 0 := fun h0 => h (BitVec.eq_of_toNat_eq h0)
    rw [BitVec.toNat_sub]
    simp only [BitVec.ofNat_eq_ofNat, BitVec.toNat_ofNat]
    omega

/-- The memory a reset leaves is in canonical form. -/
theorem resetMemory_wf (font : Config.FontData) : Memory.wf (resetMemory font) = true :=
  Memory.wf_writeBytes rfl (by simp [Config.fontEnd, Config.maxAddr])

/-- The memory a reset leaves reads as the installed font in the font region and 0 above it. -/
theorem read_resetMemory (font : Config.FontData) (a : Nat) :
    Memory.read (resetMemory font) a = resetByteOf font a := by
  by_cases h : a < Config.fontEnd
  · have := Memory.read_writeBytes_in (m := []) (a := 0)
      (bytes := (List.range Config.fontEnd).map (resetByteOf font)) rfl
      (by simp [Config.fontEnd, Config.maxAddr]) a (by simpa using h)
    rw [Nat.zero_add] at this
    rw [resetMemory, this]
    simp
  · rw [resetMemory, Memory.read_writeBytes_ne _ _ (.inr (by simpa using h)), Memory.read_nil]
    have h80 : ¬ a < 80 := h
    rw [resetByte, resetByteOf, resetByteOf, dif_neg h80, dif_neg h80]

/-- A run over two lists is one run after the other. -/
theorem runTransactions_append (as bs : List Transaction) (s : State) :
    runTransactions (as ++ bs) s = runTransactions bs (runTransactions as s) := by
  induction as generalizing s with
  | nil => rfl
  | cons a as ih => exact ih _

end Sys2Proof.Machine
end

