-- ==== Sys2Proof/Laws/PerInstr.lean ====
section
/-!
SUPPORT. Statements made per instruction: the word of every instruction is one of the words its row
of spec/opcode_table.json names.
-/

namespace Sys2Proof

/-! ## Masking a word of each format -/

theorem wordNNN_and (op : BitVec 4) (nnn : BitVec 12) :
    wordNNN op nnn &&& 0xF000 = op ++ (0 : BitVec 12) := by
  rw [show (0xF000 : Word) = (0xF : BitVec 4) ++ (0 : BitVec 12) from rfl, wordNNN, BitVec.and_append]
  congr 1
  · exact BitVec.and_allOnes
  · exact BitVec.and_zero

theorem wordXKK_and (op : BitVec 4) (x : RegIx) (kk : Byte) :
    wordXKK op x kk &&& 0xF000 = op ++ (0 : BitVec 12) :=
  wordNNN_and op (nibble x ++ kk)

theorem wordXKK_and_low (op : BitVec 4) (x : RegIx) (kk : Byte) :
    wordXKK op x kk &&& 0xF0FF = op ++ ((0 : BitVec 4) ++ kk) := by
  rw [show (0xF0FF : Word) = (0xF : BitVec 4) ++ ((0 : BitVec 4) ++ (0xFF : Byte)) from rfl, wordXKK,
    BitVec.and_append, BitVec.and_append]
  congr 1
  · exact BitVec.and_allOnes
  · congr 1
    · exact BitVec.and_zero
    · exact BitVec.and_allOnes

theorem wordXYN_and (op : BitVec 4) (x y : RegIx) (n : BitVec 4) :
    wordXYN op x y n &&& 0xF000 = op ++ (0 : BitVec 12) :=
  wordNNN_and op (nibble x ++ (nibble y ++ n))

theorem wordXYN_and_low (op : BitVec 4) (x y : RegIx) (n : BitVec 4) :
    wordXYN op x y n &&& 0xF00F = op ++ ((0 : BitVec 8) ++ n) := by
  rw [show (0xF00F : Word) = (0xF : BitVec 4) ++ ((0 : BitVec 4) ++ ((0 : BitVec 4) ++ (0xF : BitVec 4)))
    from rfl, wordXYN, BitVec.and_append, BitVec.and_append, BitVec.and_append]
  rw [show (0 : BitVec 8) ++ n = (0 : BitVec 4) ++ ((0 : BitVec 4) ++ n) by
    refine BitVec.eq_of_getLsbD_eq fun k _ => ?_
    simp only [BitVec.getLsbD_append]
    split
    · rename_i h4
      have h8 : k < 8 := by omega
      simp [h8]
    · split <;> simp]
  congr 1
  · exact BitVec.and_allOnes
  · congr 1
    · exact BitVec.and_zero
    · congr 1
      · exact BitVec.and_zero
      · exact BitVec.and_allOnes

end Sys2Proof

namespace Sys2Proof.Laws.EncodingRow

open Sys2Proof

/-- The instruction's word, masked by its row's mask, is its row's pattern. -/
def Statement (i : Instr) : Prop := encodeWord i &&& (opcodeRow i).mask = (opcodeRow i).pattern

theorem cls : Statement .cls := rfl

theorem ret : Statement .ret := rfl

theorem jp (nnn : BitVec 12) : Statement (.jp nnn) :=
  (wordNNN_and _ _).trans rfl

theorem call (nnn : BitVec 12) : Statement (.call nnn) :=
  (wordNNN_and _ _).trans rfl

theorem seK (x : RegIx) (kk : Byte) : Statement (.seK x kk) :=
  (wordXKK_and _ _ _).trans rfl

theorem sneK (x : RegIx) (kk : Byte) : Statement (.sneK x kk) :=
  (wordXKK_and _ _ _).trans rfl

theorem seR (x y : RegIx) : Statement (.seR x y) :=
  (wordXYN_and_low _ _ _ _).trans rfl

theorem ldK (x : RegIx) (kk : Byte) : Statement (.ldK x kk) :=
  (wordXKK_and _ _ _).trans rfl

theorem addK (x : RegIx) (kk : Byte) : Statement (.addK x kk) :=
  (wordXKK_and _ _ _).trans rfl

theorem ldR (x y : RegIx) : Statement (.ldR x y) :=
  (wordXYN_and_low _ _ _ _).trans rfl

theorem orR (x y : RegIx) : Statement (.orR x y) :=
  (wordXYN_and_low _ _ _ _).trans rfl

theorem andR (x y : RegIx) : Statement (.andR x y) :=
  (wordXYN_and_low _ _ _ _).trans rfl

theorem xorR (x y : RegIx) : Statement (.xorR x y) :=
  (wordXYN_and_low _ _ _ _).trans rfl

theorem addR (x y : RegIx) : Statement (.addR x y) :=
  (wordXYN_and_low _ _ _ _).trans rfl

theorem sub (x y : RegIx) : Statement (.sub x y) :=
  (wordXYN_and_low _ _ _ _).trans rfl

theorem shr (x y : RegIx) : Statement (.shr x y) :=
  (wordXYN_and_low _ _ _ _).trans rfl

theorem subn (x y : RegIx) : Statement (.subn x y) :=
  (wordXYN_and_low _ _ _ _).trans rfl

theorem shl (x y : RegIx) : Statement (.shl x y) :=
  (wordXYN_and_low _ _ _ _).trans rfl

theorem sneR (x y : RegIx) : Statement (.sneR x y) :=
  (wordXYN_and_low _ _ _ _).trans rfl

theorem ldI (nnn : BitVec 12) : Statement (.ldI nnn) :=
  (wordNNN_and _ _).trans rfl

theorem jpV0 (nnn : BitVec 12) : Statement (.jpV0 nnn) :=
  (wordNNN_and _ _).trans rfl

theorem rnd (x : RegIx) (kk : Byte) : Statement (.rnd x kk) :=
  (wordXKK_and _ _ _).trans rfl

theorem drw (x y : RegIx) (n : Nat) : Statement (.drw x y n) :=
  (wordXYN_and _ _ _ _).trans rfl

theorem skp (x : RegIx) : Statement (.skp x) :=
  (wordXKK_and_low _ _ _).trans rfl

theorem sknp (x : RegIx) : Statement (.sknp x) :=
  (wordXKK_and_low _ _ _).trans rfl

theorem ldVDT (x : RegIx) : Statement (.ldVDT x) :=
  (wordXKK_and_low _ _ _).trans rfl

theorem ldVK (x : RegIx) : Statement (.ldVK x) :=
  (wordXKK_and_low _ _ _).trans rfl

theorem ldDTV (x : RegIx) : Statement (.ldDTV x) :=
  (wordXKK_and_low _ _ _).trans rfl

theorem ldSTV (x : RegIx) : Statement (.ldSTV x) :=
  (wordXKK_and_low _ _ _).trans rfl

theorem addI (x : RegIx) : Statement (.addI x) :=
  (wordXKK_and_low _ _ _).trans rfl

theorem ldF (x : RegIx) : Statement (.ldF x) :=
  (wordXKK_and_low _ _ _).trans rfl

theorem ldB (x : RegIx) : Statement (.ldB x) :=
  (wordXKK_and_low _ _ _).trans rfl

theorem ldMI (x : RegIx) : Statement (.ldMI x) :=
  (wordXKK_and_low _ _ _).trans rfl

theorem ldVMI (x : RegIx) : Statement (.ldVMI x) :=
  (wordXKK_and_low _ _ _).trans rfl

end Sys2Proof.Laws.EncodingRow
end

