-- ==== Sys2Proof/Tests/Slice0.lean ====
section
/-!
SUPPORT. Tests: words written out from spec/opcode_table.json and spec/30_encoding.md, vectors of
spec/95_test_vectors.md (named by their id), and a witness for the hypotheses of each statement.
-/

namespace Sys2Proof.Tests

open Sys2Proof Sys2Proof.Machine Sys2Proof.Claims

/-! ## Helpers -/

/-- What `obs` sees of a next state. -/
def look {α : Type} (obs : State → α) (r : Result) : Option α :=
  match r with
  | .next t => some (obs t)
  | .fault _ => none
  | .refused _ => none

/-- The fault of an outcome. -/
def faultOf (r : Result) : Option Fault :=
  match r with
  | .next _ => none
  | .fault f => some f
  | .refused _ => none

/-- The refusal of an outcome. -/
def refusalOf (r : Result) : Option Refusal :=
  match r with
  | .next _ => none
  | .fault _ => none
  | .refused e => some e

/-- S0 of spec/95_test_vectors.md with some registers set. -/
def withRegs (regs : List (RegIx × Byte)) : State :=
  regs.foldl (fun s p => s.setV p.1 p.2) State.reset

/-- `withRegs`, with I and a few bytes stored at I. -/
def withData (index : Word) (bytes : List Byte) (regs : List (RegIx × Byte)) : State :=
  ((withRegs regs).setIndex index).setMem (Memory.writeBytes [] index.toNat bytes)

/-- One step that runs the word `w`. -/
def runWord (w : Nat) (s : State) : Result := step (s.withFetchWord 16 w)

/-- The other reading of VF_ALIAS. -/
def snapshot (s : State) : State := { s with params := { s.params with vfAlias := .snapshot } }

/-- The other FONT_WRITE policy. -/
def storing (s : State) : State := { s with params := { s.params with fontWrite := .store } }

/-- The key vector with exactly the given keys pressed. -/
def keysOf (ks : List KeyIx) : Vector Bool 16 := Vector.ofFn fun k => ks.contains k

/-- S0 with `k` addresses on the stack. -/
def withStack (k : Fin 17) : State :=
  State.reset.setStack (Vector.ofFn fun j => BitVec.ofNat 16 (0x202 + 2 * j.val)) k

/-- The cells of a row that are set. -/
def setCells (row : Nat) (s : State) : List Nat :=
  (List.range 64).filter fun px => s.disp.getPixel px row

/-- A display with the given cells, each (column, row), set. -/
def cells (ps : List (Fin 64 × Fin 32)) : Display :=
  ps.foldl (fun d p => d.setPixel p.1 p.2 true) Display.clear

/-! ## WellFormed: what it accepts and the ill-formed term it refuses -/

theorem test_wellFormed_refuses_wide_sprite : (Instr.drw 0 0 16).wellFormed = false := by decide
theorem test_wellFormed_accepts_sprite : (Instr.drw 15 15 15).wellFormed = true := by decide

/-! ## Decoding: every row of spec/opcode_table.json, its word written out field by field -/

theorem test_decode_family0 :
    decodeWord 0b0000000011100000 = .ok .cls ∧ decodeWord 0b0000000011101110 = .ok .ret := by
  decide

theorem test_decode_addresses :
    decodeWord 0b0001101010111100 = .ok (.jp 0xABC) ∧
    decodeWord 0b0010001100000001 = .ok (.call 0x301) ∧
    decodeWord 0b1010001011110000 = .ok (.ldI 0x2F0) ∧
    decodeWord 0b1011111111111110 = .ok (.jpV0 0xFFE) := by decide

theorem test_decode_immediates :
    decodeWord 0b0011001100010010 = .ok (.seK 3 0x12) ∧
    decodeWord 0b0100001100010011 = .ok (.sneK 3 0x13) ∧
    decodeWord 0b0110101011111110 = .ok (.ldK 10 0xFE) ∧
    decodeWord 0b0111111100000001 = .ok (.addK 15 0x01) ∧
    decodeWord 0b1100001111110000 = .ok (.rnd 3 0xF0) := by decide

theorem test_decode_two_registers :
    decodeWord 0b0101000100100000 = .ok (.seR 1 2) ∧
    decodeWord 0b1001000100100000 = .ok (.sneR 1 2) ∧
    decodeWord 0b1101000000010101 = .ok (.drw 0 1 5) := by decide

theorem test_decode_family8 :
    decodeWord 0b1000111100010000 = .ok (.ldR 15 1) ∧
    decodeWord 0b1000111100010001 = .ok (.orR 15 1) ∧
    decodeWord 0b1000111100010010 = .ok (.andR 15 1) ∧
    decodeWord 0b1000111100010011 = .ok (.xorR 15 1) ∧
    decodeWord 0b1000111100010100 = .ok (.addR 15 1) ∧
    decodeWord 0b1000111100010101 = .ok (.sub 15 1) ∧
    decodeWord 0b1000111100010110 = .ok (.shr 15 1) ∧
    decodeWord 0b1000111100010111 = .ok (.subn 15 1) ∧
    decodeWord 0b1000111100011110 = .ok (.shl 15 1) := by decide

theorem test_decode_familyE :
    decodeWord 0b1110010110011110 = .ok (.skp 5) ∧
    decodeWord 0b1110010110100001 = .ok (.sknp 5) := by decide

theorem test_decode_familyF :
    decodeWord 0b1111001000000111 = .ok (.ldVDT 2) ∧
    decodeWord 0b1111001000001010 = .ok (.ldVK 2) ∧
    decodeWord 0b1111001000010101 = .ok (.ldDTV 2) ∧
    decodeWord 0b1111001000011000 = .ok (.ldSTV 2) ∧
    decodeWord 0b1111001000011110 = .ok (.addI 2) ∧
    decodeWord 0b1111001000101001 = .ok (.ldF 2) ∧
    decodeWord 0b1111001000110011 = .ok (.ldB 2) ∧
    decodeWord 0b1111001001010101 = .ok (.ldMI 2) ∧
    decodeWord 0b1111001001100101 = .ok (.ldVMI 2) := by decide

/-- U1 to U13: one word of each unknown region. -/
theorem test_unknown_words :
    ([0x0000, 0x0123, 0x00E1, 0x01E0, 0x02EE, 0x5121, 0x8008, 0x800F, 0x9121, 0xE000, 0xE19F, 0xF000,
      0xF0FF].all fun w => decide (decodeWord w = .error (.unknown w))) = true := by decide

/-- Big-endian, and rejected by name when cut short (20_memory.md R56). -/
theorem test_decode_bytes :
    decode [0x80, 0x14, 0x12] = .ok (.addR 0 1, [0x12]) ∧
    decode [0x80] = .error (.truncated 1) ∧ decode [] = .error (.truncated 0) := by decide

theorem test_decodeTableWord :
    decodeTableWord 16 0x8014 = some (.addR 0 1) ∧ decodeTableWord 16 0x0000 = none := by decide

/-! ## Control transfer (L2.1) -/

theorem test_C1_ret : look (fun t => (t.pc, t.sp)) (runWord 0x00EE (withStack 1)) =
    some (0x202, 0) := by decide
theorem test_C2_ret_empty : faultOf (runWord 0x00EE State.reset) = some .stackUnderflow := by decide
theorem test_C3_jp : look State.pc (runWord 0x1ABC State.reset) = some 0xABC := by decide
theorem test_C4_call : look (fun t => (t.pc, t.sp, t.stack[0])) (runWord 0x2300 State.reset) =
    some (0x300, 1, 0x202) := by decide
theorem test_C5_call_full : faultOf (runWord 0x2300 (withStack 16)) = some .stackOverflow := by
  decide
theorem test_C7_seK : look State.pc (runWord 0x3312 (withRegs [(3, 0x12)])) = some 0x204 ∧
    look State.pc (runWord 0x3313 (withRegs [(3, 0x12)])) = some 0x202 := by decide
theorem test_C8_sneK : look State.pc (runWord 0x4312 (withRegs [(3, 0x12)])) = some 0x202 ∧
    look State.pc (runWord 0x4313 (withRegs [(3, 0x12)])) = some 0x204 := by decide
theorem test_C9_seR : look State.pc (runWord 0x5120 (withRegs [(1, 7), (2, 7)])) = some 0x204 ∧
    look State.pc (runWord 0x5120 (withRegs [(1, 7), (2, 8)])) = some 0x202 := by decide
theorem test_C10_sneR : look State.pc (runWord 0x9120 (withRegs [(1, 7), (2, 8)])) = some 0x204 ∧
    look State.pc (runWord 0x9120 (withRegs [(1, 7), (2, 7)])) = some 0x202 := by decide
theorem test_C11_jpV0 : look State.pc (runWord 0xBFFF (withRegs [(0, 0xFF)])) = some 0x10FE := by
  decide
theorem test_C12_skip_past_the_end :
    look State.pc (runWord 0x3000 (State.reset.setPc 0xFFC)) = some 0x1000 := by decide

/-! ## Registers and arithmetic (L2.2) -/

/-- V0, VF and PC after one step. -/
def v0vf (t : State) : Byte × Byte × Word := (t.getV 0, t.getV 15, t.pc)

theorem test_A1_ldK : look (fun t => t.getV 10) (runWord 0x6AFF State.reset) = some 0xFF := by decide
theorem test_A2_addK_no_carry :
    look v0vf (runWord 0x7001 (withRegs [(0, 0xFF), (15, 0x55)])) = some (0x00, 0x55, 0x202) := by
  decide
theorem test_A4_ldR : look v0vf (runWord 0x8010 (withRegs [(1, 0x3C)])) =
    some (0x3C, 0x00, 0x202) := by decide
theorem test_A5_or_keeps_vf :
    look v0vf (runWord 0x8011 (withRegs [(0, 0x0F), (1, 0xF0), (15, 0x55)])) =
      some (0xFF, 0x55, 0x202) := by decide
theorem test_A6_and : look v0vf (runWord 0x8012 (withRegs [(0, 0x3C), (1, 0x0F)])) =
    some (0x0C, 0x00, 0x202) := by decide
theorem test_A7_xor : look v0vf (runWord 0x8013 (withRegs [(0, 0xFF), (1, 0x0F)])) =
    some (0xF0, 0x00, 0x202) := by decide
theorem test_A9_A10_add_carry_edge :
    look v0vf (runWord 0x8014 (withRegs [(0, 0xF0), (1, 0x0F)])) = some (0xFF, 0, 0x202) ∧
    look v0vf (runWord 0x8014 (withRegs [(0, 0x80), (1, 0x80)])) = some (0x00, 1, 0x202) := by decide
theorem test_A11_add_into_vf :
    look v0vf (runWord 0x8F14 (withRegs [(15, 0x80), (1, 0x90)])) = some (0, 0x10, 0x202) := by decide
theorem test_A15_sub_equal :
    look v0vf (runWord 0x8015 (withRegs [(0, 7), (1, 7)])) = some (0x00, 1, 0x202) := by decide
theorem test_A16_A17_sub_alias :
    look v0vf (runWord 0x8F15 (withRegs [(15, 0x10), (1, 0x20)])) = some (0, 0xE0, 0x202) ∧
    look v0vf (runWord 0x8F15 (snapshot (withRegs [(15, 0x10), (1, 0x20)]))) =
      some (0, 0xF0, 0x202) ∧
    look v0vf (runWord 0x80F5 (withRegs [(0, 0x10), (15, 0x05)])) = some (0x0F, 1, 0x202) ∧
    look v0vf (runWord 0x80F5 (snapshot (withRegs [(0, 0x10), (15, 0x05)]))) =
      some (0x0B, 1, 0x202) := by decide
theorem test_A19_A20_subn :
    look v0vf (runWord 0x8017 (withRegs [(0, 3), (1, 5)])) = some (0x02, 1, 0x202) ∧
    look v0vf (runWord 0x8017 (withRegs [(0, 5), (1, 3)])) = some (0xFE, 0, 0x202) := by decide
theorem test_A21_A22_subn_alias :
    look v0vf (runWord 0x8F17 (withRegs [(15, 0x10), (1, 0x20)])) = some (0, 0x1F, 0x202) ∧
    look v0vf (runWord 0x8F17 (snapshot (withRegs [(15, 0x10), (1, 0x20)]))) =
      some (0, 0x10, 0x202) ∧
    look v0vf (runWord 0x80F7 (withRegs [(0, 0x10), (15, 0x05)])) = some (0xF0, 0, 0x202) ∧
    look v0vf (runWord 0x80F7 (snapshot (withRegs [(0, 0x10), (15, 0x05)]))) =
      some (0xF5, 0, 0x202) := by decide
theorem test_A23_shr_reads_vy :
    look v0vf (runWord 0x8016 (withRegs [(0, 0xFF), (1, 0x05)])) = some (0x02, 1, 0x202) := by decide
theorem test_A26_A27_shr_alias :
    look v0vf (runWord 0x80F6 (withRegs [(15, 0x03)])) = some (0x00, 1, 0x202) ∧
    look v0vf (runWord 0x80F6 (snapshot (withRegs [(15, 0x03)]))) = some (0x01, 1, 0x202) ∧
    look v0vf (runWord 0x8FF6 (snapshot (withRegs [(15, 0x03)]))) = some (0x00, 1, 0x202) := by
  decide
theorem test_A29_A30_shl :
    look v0vf (runWord 0x801E (withRegs [(1, 0x81)])) = some (0x02, 1, 0x202) ∧
    look v0vf (runWord 0x801E (withRegs [(1, 0x7F)])) = some (0xFE, 0, 0x202) := by decide
theorem test_A32_shl_alias :
    look v0vf (runWord 0x80FE (withRegs [(15, 0xC0)])) = some (0x02, 1, 0x202) ∧
    look v0vf (runWord 0x80FE (snapshot (withRegs [(15, 0xC0)]))) = some (0x80, 1, 0x202) := by decide
theorem test_A34_rnd :
    look v0vf (runWord 0xC00F (State.reset.setRand [0xAB])) = some (0x0B, 0, 0x202) := by decide

/-! ## Index register and memory (L2.3) -/

/-- The bytes at 0x300, 0x301 and 0x302. -/
def at300 (t : State) : List Byte := t.bytesFrom 0x300 3

theorem test_M1_ldI : look State.index (runWord 0xA2F0 State.reset) = some 0x2F0 := by decide
theorem test_M3_M4_addI_wraps_at_16_bits :
    look State.index (runWord 0xF01E (withData 0xFFFF [] [(0, 1)])) = some 0x0000 ∧
    look State.index (runWord 0xF01E (withData 0x0FFF [] [(0, 1)])) = some 0x1000 := by decide
theorem test_M5_M6_ldF_full_byte :
    look State.index (runWord 0xF429 (withRegs [(4, 0x0A)])) = some 0x032 ∧
    look State.index (runWord 0xF429 (withRegs [(4, 0xFF)])) = some 0x4FB := by decide
theorem test_M7_M8_ldB :
    look at300 (runWord 0xF633 (withData 0x300 [] [(6, 157)])) = some [1, 5, 7] ∧
    look at300 (runWord 0xF633 (withData 0x300 [0xFF, 0xFF, 0xFF] [(6, 0)])) = some [0, 0, 0] := by
  decide
theorem test_M10_M11_ldB_stops :
    faultOf (runWord 0xF633 (withData 0xFFE [] [(6, 1)])) = some (.addressOutOfRange 0x1000) ∧
    refusalOf (runWord 0xF633 (withData 0x04E [] [(6, 1)])) = some (.fontWrite 0x04E) ∧
    look (fun t => t.bytesFrom 0x04E 3) (runWord 0xF633 (storing (withData 0x04E [] [(6, 123)]))) =
      some [1, 2, 3] := by decide
theorem test_M12_ldMI :
    look (fun t => (at300 t, t.index)) (runWord 0xF255 (withData 0x300 [] [(0, 1), (1, 2), (2, 3)])) =
      some ([1, 2, 3], 0x303) := by decide
theorem test_M13_M14_ldMI_end_of_memory :
    look (fun t => (t.byteAt 0xFFF, t.index)) (runWord 0xF755 (withData 0xFF8 [] [(7, 8)])) =
      some (8, 0x1000) ∧
    faultOf (runWord 0xF855 (withData 0xFF8 [] [])) = some (.addressOutOfRange 0x1000) := by decide
theorem test_M17_ldVMI :
    look (fun t => ([t.getV 0, t.getV 1, t.getV 2, t.getV 3], t.index))
      (runWord 0xF265 (withData 0x300 [1, 2, 3] [(3, 0x44)])) = some ([1, 2, 3, 0x44], 0x303) := by
  decide
theorem test_M18_M19_ldVMI_font_and_end :
    look (fun t => [t.getV 0, t.getV 1, t.getV 4, t.getV 5]) (runWord 0xF465 State.reset) =
      some [0xF0, 0x90, 0xF0, 0] ∧
    faultOf (runWord 0xF165 (withData 0xFFF [] [])) = some (.addressOutOfRange 0x1000) := by decide

/-! ## Display (L2.4) -/

theorem test_D1_cls :
    look (fun t => (setCells 5 t, setCells 31 t, t.getV 15))
      (runWord 0x00E0 ((withRegs [(15, 0x07)]).setDisp (cells [(5, 5), (63, 31)]))) =
      some ([], [], 0x07) := by decide
theorem test_D2_drw_wraps :
    look (fun t => (setCells 0 t, t.getV 15)) (runWord 0xD011 (withData 0x300 [0xFF] [(0, 60)])) =
      some ([0, 1, 2, 3, 60, 61, 62, 63], 0) := by decide
theorem test_D10_drw_collision :
    look (fun t => (setCells 0 t, t.getV 15))
      (runWord 0xD001 ((withData 0x300 [0xA0] []).setDisp (cells [(0, 0)]))) =
      some ([2], 1) := by decide

/-! ## Keys and timers (L2.5) -/

theorem test_K1_K2_skp :
    look State.pc (runWord 0xE59E ((withRegs [(5, 0x0A)]).setKeys (keysOf [0xA]))) = some 0x204 ∧
    look State.pc (runWord 0xE59E (withRegs [(5, 0x0A)])) = some 0x202 := by decide
theorem test_K3_K4_sknp :
    look State.pc (runWord 0xE5A1 (withRegs [(5, 0x0A)])) = some 0x204 ∧
    look State.pc (runWord 0xE5A1 ((withRegs [(5, 0x0A)]).setKeys (keysOf [0xA]))) = some 0x202 := by
  decide
theorem test_K6_K8_ldVK :
    look State.pc (runWord 0xF30A State.reset) = some 0x200 ∧
    look v0vf (runWord 0xFF0A ((withRegs [(15, 1)]).setKeys (keysOf [0xC]))) =
      some (0, 0x0C, 0x202) := by decide
theorem test_K9_ldVDT :
    look (fun t => t.getV 2) (runWord 0xF207 (State.reset.setDt 0x3C)) = some 0x3C := by decide
theorem test_K10_K12_ldDTV :
    look State.dt (runWord 0xF215 (withRegs [(2, 0x3C)])) = some 0x3C ∧
    look State.dt (runWord 0xF015 (State.reset.setDt 9)) = some 0 := by decide
theorem test_K11_ldSTV :
    look (fun t => (t.st, t.toneOn)) (runWord 0xF218 (withRegs [(2, 5)])) = some (5, true) := by decide

/-! ## Ticks, faults and load (T1 to T4, F1 to F10) -/

theorem test_T1_T2_tickDelay :
    (State.reset.setDt 1).tickDelay.dt = 0 ∧ (State.reset.setDt 0).tickDelay.dt = 0 := by decide
theorem test_T4_tick60 : (((State.reset.setDt 5).setSt 7).tick60.dt = 4) ∧
    ((State.reset.setDt 5).setSt 7).tick60.st = 6 := by decide
theorem test_F1_F3_fetch_faults :
    faultOf (step (State.reset.setPc 0xFFF)) = some (.addressOutOfRange 0x1000) ∧
    faultOf (step (State.reset.setPc 0xFFFF)) = some (.addressOutOfRange 0xFFFF) := by decide
theorem test_F4_unknown_at_the_end :
    faultOf (step (State.reset.setPc 0xFFE)) = some (.unknownInstruction 0x0000) := by decide
theorem test_F5_halted_block_repeats_its_fault :
    (transact .step (transact .step (State.reset.setPc 0xFFF)).1).2 =
      .fault (.addressOutOfRange 0x1000) := by decide
theorem test_F8_load :
    look (fun t => (t.bytesFrom 0x200 2, t.getV 0, t.pc))
      ((withRegs [(0, 5)]).loadProgram [0x60, 0x07]) = some ([0x60, 0x07], 5, 0x200) := by decide
theorem test_F10_load_too_long :
    refusalOf (State.reset.loadProgram (List.replicate 3585 0)) = some (.programTooLong 3585) := by
  rw [State.loadProgram, if_neg (by rw [List.length_replicate]; decide), List.length_replicate]
  rfl

/-! ## Witnesses: for each statement with hypotheses, a state and operands that meet them -/

theorem witness_DecodeOfEncodeIsInstruction :
    (Instr.drw 15 15 15).wellFormed = true ∧ (Instr.ldVMI 15).wellFormed = true := by decide

theorem witness_EncodeOfDecodeIsWord : decodeWord 0xD01F = .ok (.drw 0 1 15) := by decide

/-- At the last address a word can be fetched from. -/
theorem witness_StepRunsDecodedInstruction :
    let s := (State.reset.setPc 0xFFE).withFetchWord 16 0x8014
    s.halt = none ∧ s.pc.toNat ≤ 0xFFE ∧ decodeWord (BitVec.ofNat 16
      ((s.byteAt s.pc.toNat).toNat * 256 + (s.byteAt (s.pc.toNat + 1)).toNat)) = .ok (.addR 0 1) := by
  decide

theorem witness_FetchAboveMemoryFaults :
    (State.reset.setPc 0xFFF).halt = none ∧ 0xFFF ≤ (State.reset.setPc 0xFFF).pc.toNat ∧
    (State.reset.setPc 0xFFFF).halt = none ∧ 0xFFF ≤ (State.reset.setPc 0xFFFF).pc.toNat := by decide

theorem witness_UnknownWordFaults :
    State.reset.halt = none ∧ State.reset.pc.toNat ≤ 0xFFE ∧
    ∀ i : Instr, State.reset.wordAtPc &&& (opcodeRow i).mask ≠ (opcodeRow i).pattern := by
  refine ⟨rfl, by decide, fun i => ?_⟩
  rw [show State.reset.wordAtPc = 0 by decide]
  cases i <;> simp [opcodeRow]

theorem witness_FailingStepChangesOnlyHalt :
    step (State.reset.withFetchWord 16 0x00EE) = .fault .stackUnderflow := rfl

theorem witness_HaltLastsUntilReset :
    (State.reset.recordFault .stackOverflow).halt = some .stackOverflow ∧
    Transaction.reset ∉ [Transaction.step, .tickDelay, .loadProgram [0x12, 0x00], .readST] := by decide

/-- Each of the three clauses of the statement, at its boundary. -/
theorem witness_FaultsOfInstructions :
    faultOf (exec (.call 0x300) (withStack 16)) = some .stackOverflow ∧
    faultOf (exec .ret (withStack 0)) = some .stackUnderflow ∧
    faultOf (exec (.ldVMI 1) (withData 0xFFF [] [])) = some (.addressOutOfRange 0x1000) ∧
    faultOf (exec (.drw 0 0 1) (withData 0x1000 [] [])) = some (.addressOutOfRange 0x1000) := by
  decide

theorem witness_RefusalsOfInstructions :
    refusalOf (exec (.ldMI 15) (withData 0x04F [] [])) = some (.fontWrite 0x04F) ∧
    refusalOf (exec (.ldMI 15) (withData 0x050 [] [])) = none ∧
    refusalOf (runWord 0xF033 (withData 0x04F [] [])) = some (.fontWrite 0x04F) := by decide

/-- The words next to the two skips' words. -/
theorem witness_SkipOnTwoRegisters : (1 : BitVec 4) ≠ 0 ∧ (15 : BitVec 4) ≠ 0 := by decide

theorem witness_InstructionsWriteOnlyTheirRow :
    ∃ t, exec (.ldMI 15) (withData 0x300 [] [(3, 7)]) = .next t := ⟨_, rfl⟩

theorem witness_DefaultPcUpdate :
    (setsPc (.drw 0 0 0) = false ∧ ∃ t, exec (.drw 0 0 0) State.reset = .next t) ∧
    (isSkip (.seR 0 1) = true ∧ ∃ t, exec (.seR 0 1) State.reset = .next t) ∧
    ∃ t, exec (.ldVK 3) State.reset = .next t := ⟨⟨rfl, _, rfl⟩, ⟨rfl, _, rfl⟩, _, rfl⟩

theorem witness_OnlyFlagInstructionsChangeVF :
    writesFlag (.orR 0 15) = false ∧ destIsVf (.orR 0 15) = false ∧
    ∃ t, exec (.orR 0 15) State.reset = .next t := ⟨rfl, rfl, _, rfl⟩

theorem witness_OtherInstructionsReadNoInput :
    readsInput (.drw 0 1 5) = false ∧ readsInput .cls = false := by decide

/-- The slot at SP itself is dead, the one below it live. -/
theorem witness_DeadStackSlotsUnobservable :
    SameLive (withStack 2) { withStack 2 with stack := (withStack 2).stack.set 2 0xABC } :=
  ⟨rfl, by decide⟩

theorem witness_ReturnPopsAddress :
    0 < (withStack 1).sp.val ∧ 0 < (withStack 16).sp.val ∧ (withStack 0).sp.val = 0 := by decide

theorem witness_CallPushesNextAddress :
    (withStack 0).sp.val < 16 ∧ (withStack 15).sp.val < 16 ∧ (withStack 16).sp.val = 16 := by decide

/-- A state with the stack a call left, as the statement's second state. -/
theorem witness_ReturnGoesBackAfterCall :
    (withStack 15).sp.val < 16 ∧ ∃ t, exec (.call 0x300) (withStack 15) = .next t ∧
      ∃ u : State, u.stack = t.stack ∧ u.sp = t.sp := ⟨by decide, _, rfl, _, rfl, rfl⟩

theorem witness_JumpSetsPc :
    State.reset.halt = none ∧ (0xFFF : BitVec 12).toNat = 0xFFF := by decide

/-- The lowest sum above 0xFFE, and the highest. -/
theorem witness_ComputedJumpAddsV0 : State.reset.halt = none ∧
    look (fun t => decide (0xFFE < t.pc.toNat)) (exec (.jpV0 0xFFF) State.reset) = some true ∧
    look (fun t => decide (0xFFE < t.pc.toNat)) (exec (.jpV0 0xFFF) (withRegs [(0, 0xFF)])) =
      some true := by decide

theorem witness_AddWithCarry : (14 : RegIx) ≠ vf ∧ (0 : RegIx) ≠ vf := by decide

/-- The clauses on where VF is involved, under each VF_ALIAS. -/
theorem witness_SubtractWithNoBorrow :
    State.reset.params.vfAlias = .sequential ∧ (snapshot State.reset).params.vfAlias = .snapshot ∧
    (14 : RegIx) ≠ vf ∧ (15 : RegIx) = vf := by decide

theorem witness_ReverseSubtractWithNoBorrow :
    State.reset.params.vfAlias = .sequential ∧ (snapshot State.reset).params.vfAlias = .snapshot ∧
    (14 : RegIx) ≠ vf ∧ (15 : RegIx) = vf := by decide

theorem witness_ShiftRightOfVy :
    (15 : RegIx) = vf ∧ (0 : RegIx) ≠ vf ∧ State.reset.params.vfAlias = .sequential ∧
    (snapshot State.reset).params.vfAlias = .snapshot := by decide

theorem witness_ShiftLeftOfVy :
    (15 : RegIx) = vf ∧ (0 : RegIx) ≠ vf ∧ State.reset.params.vfAlias = .sequential ∧
    (snapshot State.reset).params.vfAlias = .snapshot := by decide

theorem witness_RandomByteMasked : (State.reset.setRand [0xAB, 0x01]).rand = 0xAB :: [0x01] := by
  decide

/-- The last address the store is in range at, both ways it is allowed, and the first it faults at. -/
theorem witness_DecimalDigitsStored :
    (Memory.wf (withData 0xFFD [7] []).mem = true ∧ inRange (withData 0xFFD [7] []).base 3 ∧
      storeAllowed (withData 0xFFD [7] []) (withData 0xFFD [7] []).base) ∧
    (inRange (storing (withData 0x000 [] [])).base 3 ∧
      storeAllowed (storing (withData 0x000 [] [])) (storing (withData 0x000 [] [])).base) ∧
    0xFFF < (withData 0xFFE [] []).base + 2 := by decide

theorem witness_RegisterBlockStored :
    (Memory.wf (withData 0xFF0 [7] []).mem = true ∧
      inRange (withData 0xFF0 [7] []).base ((15 : RegIx).val + 1) ∧
      storeAllowed (withData 0xFF0 [7] []) (withData 0xFF0 [7] []).base) ∧
    0xFFF < (withData 0xFF1 [] []).base + (15 : RegIx).val := by decide

theorem witness_RegisterBlockLoaded :
    inRange (withData 0xFF0 [] []).base ((15 : RegIx).val + 1) ∧
    0xFFF < (withData 0xFF1 [] []).base + (15 : RegIx).val := by decide

theorem witness_StoreSeenByNextFetch :
    let s := withData 0x202 [] [(0, 0x60), (1, 0x07)]
    s.halt = none ∧ Memory.wf s.mem = true ∧ inRange s.base ((1 : RegIx).val + 1) ∧
    storeAllowed s s.base ∧ (1 : RegIx) ≠ 0 ∧ s.base = s.pc.toNat + 2 ∧
    decodeWord (wordOfBytes (s.getV 0) (s.getV 1)) = .ok (.ldK 0 0x07) := by decide

theorem witness_FontNeverChangesUnderRefuse :
    State.reset.params.fontWrite = .refuse ∧
    Transaction.reset ∉ [Transaction.loadProgram [0xF0, 0x55], .step, .tickSound] ∧ 0x4F < 0x50 := by
  decide

/-- A full sprite, a pixel of it, and a cell it does not reach. -/
theorem witness_SpriteXorsWrappedCells :
    (List.replicate 15 (0xFF : Byte)).length ≤ 15 ∧
    (14 < (List.replicate 15 (0xFF : Byte)).length ∧ 7 < 8) ∧
    ∀ row < (List.replicate 15 (0xFF : Byte)).length, ∀ col < 8, ¬ under 60 31 row col 4 31 := by
  decide

theorem witness_SpriteDrawIsSelfInverse : (List.replicate 15 (0xFF : Byte)).length ≤ 15 := by decide

theorem witness_DrawSpriteInstruction :
    15 < 16 ∧ inRange (withData 0xFF1 [] []).base 15 ∧ 0xFFF < (withData 0xFF2 [] []).base + 15 - 1 ∧
    0 < 15 := by decide

theorem witness_SkipOnKey :
    ((withRegs [(5, 15)]).getV 5).toNat = (15 : KeyIx).val ∧
    15 < ((withRegs [(5, 16)]).getV 5).toNat := by decide

theorem witness_WaitForKey :
    (∀ k : KeyIx, State.reset.keys[k.val] = false) ∧
    ∃ k : KeyIx, (State.reset.setKeys (keysOf [3, 7])).keys[k.val] = true := by decide

theorem witness_ProgramLoad :
    Memory.wf State.reset.mem = true ∧ (List.replicate 3584 (0x12 : Byte)).length ≤ 3584 ∧
    3584 < (List.replicate 3585 (0x12 : Byte)).length := by
  refine ⟨rfl, ?_, ?_⟩ <;> rw [List.length_replicate]
  decide

/-- A state in the middle of a program that is not the reset state and steps on. -/
theorem witness_StepKeepsInvariant :
    ((withStack 2).withFetchWord 16 0x00EE).Inv ∧
    ∃ t, step ((withStack 2).withFetchWord 16 0x00EE) = .next t :=
  ⟨⟨by decide, by decide, by unfold State.returnsBounded; decide⟩, _, rfl⟩

theorem witness_RunsKeepInvariant : (withStack 16).Inv :=
  ⟨by decide, by decide, by unfold State.returnsBounded; decide⟩

end Sys2Proof.Tests
end

section
/-!
PROOFS. Control transfer (spec/40_step_and_control.md): the decoder on encoded words, the frames of
the PC and stack updates, the faulting fetch, and with them 1nnn, 2nnn, 3xkk, 4xkk and Bnnn.
-/

namespace Sys2Proof

/-- The decoder reads an instruction back from its word. The register and immediate fields are read
by the field lemmas; Dxyn alone needs its row count to fit its field. -/
theorem decodeWord_encodeWord {i : Instr} (h : i.wellFormed = true) :
    decodeWord (encodeWord i) = .ok i := by
  cases i with
  | cls | ret => decide
  | drw x y n =>
    have hn : n < 16 := by simpa [Instr.wellFormed] using h
    simp [encodeWord, decodeWord, Nat.mod_eq_of_lt hn]
  | ldR | orR | andR | xorR | addR | sub | shr | subn | shl =>
    simp [encodeWord, decodeWord, decodeFamily8]
  | skp | sknp => simp [encodeWord, decodeWord, decodeFamilyE]
  | ldVDT | ldVK | ldDTV | ldSTV | addI | ldF | ldB | ldMI | ldVMI =>
    simp [encodeWord, decodeWord, decodeFamilyF]
  | jp | call | seK | sneK | seR | ldK | addK | sneR | ldI | jpV0 | rnd =>
    simp [encodeWord, decodeWord]

end Sys2Proof

namespace Sys2Proof.Claims

open Sys2Proof Sys2Proof.Machine

/-! ## Frames -/

/-- Nothing changed from a state to itself. -/
theorem Keeps.refl (may : List Part) (s : State) : Keeps may s s where
  regs _ _ := rfl
  index _ := rfl
  slots _ _ := rfl
  sp _ := rfl
  delay _ := rfl
  sound _ := rfl
  display _ := rfl
  bytes _ _ := rfl
  rand _ := rfl
  draws _ := rfl
  halt := rfl
  keys := rfl
  params := rfl

/-- PC is in no frame. -/
theorem Keeps.setPc {may : List Part} {s t : State} (h : Keeps may s t) (w : Word) :
    Keeps may s (t.setPc w) := { h with }

theorem Keeps.advance {may : List Part} {s t : State} (h : Keeps may s t) :
    Keeps may s t.advance := h.setPc _

theorem Keeps.skipIf {may : List Part} {s t : State} (h : Keeps may s t) (taken : Bool) :
    Keeps may s (t.skipIf taken) := by
  cases taken with
  | true => exact h.setPc _
  | false => exact h.advance

/-- Storing to the slot at SP and moving SP, as a push does, changes nothing else. -/
theorem keeps_push (s : State) (a : Word) (h : s.sp.val < 16) (k : Fin 17) :
    Keeps [.sp, .slot ⟨s.sp.val, h⟩] s (s.setStack (s.stack.set s.sp.val a) k) :=
  { Keeps.refl [.sp, .slot ⟨s.sp.val, h⟩] s with
    slots := fun r hr => by
      have hne : s.sp.val ≠ r.val := fun e => hr (by simp [e])
      simp [Vector.getElem_set_ne _ _ hne]
    sp := fun hsp => absurd List.mem_cons_self hsp }

end Sys2Proof.Claims

namespace Sys2Proof.Machine

open Sys2Proof

/-! ## The step and the meanings -/

/-- The fetch of a running block faults from 0xFFF up (60_exceptions.md R152). -/
theorem step_fetchOutOfRange {s : State} (hrun : s.halt = none) (hpc : 0xFFF ≤ s.pc.toNat) :
    step s = .fault (.addressOutOfRange (max s.pc.toNat 0x1000)) := by
  simp only [step, hrun, s.fetch_outOfRange hpc, raise]

theorem exec_jp (nnn : BitVec 12) (s : State) :
    exec (.jp nnn) s = .next (s.setPc (addrOperand nnn)) := rfl

theorem exec_call (nnn : BitVec 12) (s : State) :
    exec (.call nnn) s = pushThen s (s.pc + 2) fun t => .next (t.setPc (addrOperand nnn)) := rfl

theorem exec_seK (x : RegIx) (kk : Byte) (s : State) :
    exec (.seK x kk) s = .next (s.skipIf (decide (s.getV x = kk))) := rfl

theorem exec_sneK (x : RegIx) (kk : Byte) (s : State) :
    exec (.sneK x kk) s = .next (s.skipIf (decide (s.getV x ≠ kk))) := rfl

theorem exec_jpV0 (nnn : BitVec 12) (s : State) :
    exec (.jpV0 nnn) s = .next (s.setPc (addrOperand nnn + byteOperand (s.getV 0))) := rfl

/-- The target of Bnnn is an exact sum: 12 bits and 8 bits never wrap 16 (R98). -/
theorem jpV0_target_toNat (nnn : BitVec 12) (b : Byte) :
    (addrOperand nnn + byteOperand b).toNat = nnn.toNat + b.toNat := by
  have hnnn := nnn.isLt
  have hb := b.isLt
  rw [BitVec.toNat_add, addrOperand_toNat, byteOperand_toNat]
  omega

end Sys2Proof.Machine

namespace Sys2Proof.Proofs

open Sys2Proof Sys2Proof.Machine Sys2Proof.Claims

/-- Settles O19: 1nnn is `setPc`, and from 0xFFF the next fetch is out of range. -/
theorem jumpSetsPc : Obligations.JumpSetsPc := by
  intro nnn s
  have hpc : (s.setPc (addrOperand nnn)).pc.toNat = nnn.toNat := addrOperand_toNat nnn
  refine ⟨decodeWord_encodeWord (i := .jp nnn) rfl, _, exec_jp nnn s, hpc,
    (Keeps.refl _ s).setPc _, ?_⟩
  intro hrun hnnn
  exact ⟨_, step_fetchOutOfRange hrun (by omega)⟩

/-- Settles O20: a push with room, then `setPc`; on a full stack the push faults. -/
theorem callPushesNextAddress : Obligations.CallPushesNextAddress := by
  intro nnn s
  refine ⟨decodeWord_encodeWord (i := .call nnn) rfl, fun hroom => ?_, fun hfull => ?_⟩
  · have hexec := (exec_call nnn s).trans (pushThen_room s _ _ hroom)
    exact ⟨_, hexec, addrOperand_toNat nnn, rfl, Vector.getElem_set_self _,
      (keeps_push s _ hroom _).setPc _⟩
  · exact (exec_call nnn s).trans (pushThen_full s _ _ hfull)

/-- Settles O22: 3xkk is `skipIf` on the equality. -/
theorem skipIfEqualImmediate : Obligations.SkipIfEqualImmediate := by
  intro x kk s
  refine ⟨decodeWord_encodeWord (i := .seK x kk) rfl, _, exec_seK x kk s, ?_,
    (Keeps.refl _ s).skipIf _⟩
  simp only [State.skipIf_pc, decide_eq_true_eq]

/-- Settles O23: 4xkk is `skipIf` on the inequality, so its branches are those of 3xkk exchanged. -/
theorem skipIfNotEqualImmediate : Obligations.SkipIfNotEqualImmediate := by
  intro x kk s
  refine ⟨decodeWord_encodeWord (i := .sneK x kk) rfl, _, exec_sneK x kk s, ?_,
    (Keeps.refl _ s).skipIf _⟩
  simp only [State.skipIf_pc, decide_eq_true_eq, ne_eq, ite_not]

/-- Settles O25: Bnnn is `setPc` of the exact sum, and above 0xFFE the next fetch is out of
range. -/
theorem computedJumpAddsV0 : Obligations.ComputedJumpAddsV0 := by
  intro nnn s
  have hpc : (s.setPc (addrOperand nnn + byteOperand (s.getV 0))).pc.toNat
      = nnn.toNat + (s.getV 0).toNat := jpV0_target_toNat nnn (s.getV 0)
  have hnnn := nnn.isLt
  have hv0 := (s.getV 0).isLt
  refine ⟨decodeWord_encodeWord (i := .jpV0 nnn) rfl, _, exec_jpV0 nnn s, hpc, by omega,
    (Keeps.refl _ s).setPc _, ?_⟩
  intro hrun habove
  exact ⟨_, step_fetchOutOfRange hrun habove⟩

end Sys2Proof.Proofs
end

section
/-!
PROOFS. Registers and arithmetic (spec/41_alu.md): the frame of a register write, the results of the
flag instructions where VF is an operand or the destination, and with them 6xkk, 7xkk, 8xy0 to 8xy7
and 8xyE.
-/

namespace Sys2Proof.Claims

open Sys2Proof Sys2Proof.Machine

/-! ## Frames -/

/-- Writing a register that the frame leaves open keeps the frame. -/
theorem Keeps.setV {may : List Part} {s t : State} (h : Keeps may s t) {x : RegIx}
    (hx : Part.reg x ∈ may) (b : Byte) : Keeps may s (t.setV x b) :=
  { h with
    regs := fun r hr => by
      have hne : r ≠ x := fun e => hr (e ▸ hx)
      rw [State.getV_setV_ne t x r b hne, h.regs r hr] }

/-- Writing one register changes that register alone. -/
theorem keeps_setV (s : State) (x : RegIx) (b : Byte) : Keeps [.reg x] s (s.setV x b) :=
  (Keeps.refl _ s).setV List.mem_cons_self b

/-- Writing a flag to VF and then a result to a register changes those two alone. -/
theorem keeps_setV_vf_setV (s : State) (x : RegIx) (flag result : Byte) :
    Keeps [.reg vf, .reg x] s ((s.setV vf flag).setV x result) :=
  ((Keeps.refl _ s).setV List.mem_cons_self flag).setV
    (List.mem_cons_of_mem _ List.mem_cons_self) result

/-- Under either VF_ALIAS, a flag and a result change VF and the destination alone. -/
theorem keeps_flagThenResult (s : State) (x y : RegIx) (f g : Byte → Byte → Byte) :
    Keeps [.reg vf, .reg x] s (flagThenResult s x y f g) := by
  obtain ⟨_, _, heq⟩ := flagThenResult_eq s x y f g
  rw [heq]
  exact keeps_setV_vf_setV s x _ _

end Sys2Proof.Claims

namespace Sys2Proof.Machine

open Sys2Proof

/-! ## The meanings -/

theorem exec_ldK (x : RegIx) (kk : Byte) (s : State) :
    exec (.ldK x kk) s = .next (s.setV x kk).advance := rfl

theorem exec_addK (x : RegIx) (kk : Byte) (s : State) :
    exec (.addK x kk) s = .next (s.setV x (s.getV x + kk)).advance := rfl

theorem exec_ldR (x y : RegIx) (s : State) :
    exec (.ldR x y) s = .next (s.setV x (s.getV y)).advance := rfl

theorem exec_orR (x y : RegIx) (s : State) :
    exec (.orR x y) s = .next (s.setV x (s.getV x ||| s.getV y)).advance := rfl

theorem exec_andR (x y : RegIx) (s : State) :
    exec (.andR x y) s = .next (s.setV x (s.getV x &&& s.getV y)).advance := rfl

theorem exec_xorR (x y : RegIx) (s : State) :
    exec (.xorR x y) s = .next (s.setV x (s.getV x ^^^ s.getV y)).advance := rfl

theorem exec_addR (x y : RegIx) (s : State) :
    exec (.addR x y) s = .next
      ((s.setV vf (carryFlag (s.getV x) (s.getV y))).setV x (s.getV x + s.getV y)).advance := rfl

theorem exec_sub (x y : RegIx) (s : State) :
    exec (.sub x y) s = .next (flagThenResult s x y noBorrowFlag fun a b => a - b).advance := rfl

theorem exec_shr (x y : RegIx) (s : State) :
    exec (.shr x y) s =
      .next (flagThenResult s x y (fun _ b => shiftRightFlag b) fun _ b => b >>> 1).advance := rfl

theorem exec_subn (x y : RegIx) (s : State) :
    exec (.subn x y) s =
      .next (flagThenResult s x y (fun a b => noBorrowFlag b a) fun a b => b - a).advance := rfl

theorem exec_shl (x y : RegIx) (s : State) :
    exec (.shl x y) s =
      .next (flagThenResult s x y (fun _ b => shiftLeftFlag b) fun _ b => b <<< 1).advance := rfl

/-! ## Arithmetic on bytes -/

/-- The difference modulo 256, in the form the rules write it (R111, R112). -/
theorem byte_sub_toNat (a b : Byte) : (a - b).toNat = (a.toNat + 256 - b.toNat) % 256 := by
  have hb := b.isLt
  rw [BitVec.toNat_sub]
  omega

theorem byte_shiftRight_toNat (b : Byte) : (b >>> 1).toNat = b.toNat / 2 := by
  rw [BitVec.toNat_ushiftRight, Nat.shiftRight_eq_div_pow, Nat.pow_one]

theorem byte_shiftLeft_toNat (b : Byte) : (b <<< 1).toNat = b.toNat * 2 % 256 := by
  rw [BitVec.toNat_shiftLeft, Nat.shiftLeft_eq, Nat.pow_one]

/-- Bit 0 is the parity. -/
theorem shiftRightFlag_toNat (b : Byte) : (shiftRightFlag b).toNat = b.toNat % 2 := by
  rw [shiftRightFlag, b2v_toNat, BitVec.getLsbD, Nat.testBit_zero]
  simp only [decide_eq_true_eq]
  split <;> omega

/-- Bit 7 is the sign bit, set from 128 up. -/
theorem shiftLeftFlag_toNat (b : Byte) : (shiftLeftFlag b).toNat = b.toNat / 128 := by
  have hb := b.isLt
  have hbit : b.getLsbD 7 = decide (128 ≤ b.toNat) := b.msb_eq_decide
  rw [shiftLeftFlag, b2v_toNat, hbit]
  simp only [decide_eq_true_eq]
  split <;> omega

/-! ## Flag and result where VF is an operand (R103) -/

/-- A flag and a result fall through to the next instruction. -/
theorem flagThenResult_advance_pc (s : State) (x y : RegIx) (f g : Byte → Byte → Byte) :
    (flagThenResult s x y f g).advance.pc = s.pc + 2 := by
  rw [State.advance_pc, flagThenResult_pc]

/-- A sequential result whose first operand is VF reads the flag in its place. -/
theorem getV_flagThenResult_vf_left (s : State) {y : RegIx} (f g : Byte → Byte → Byte)
    (h : s.params.vfAlias = .sequential) (hy : y ≠ vf) :
    (flagThenResult s vf y f g).getV vf = g (f (s.getV vf) (s.getV y)) (s.getV y) := by
  rw [getV_flagThenResult_sequential s vf y f g h, State.getV_setV_same,
    State.getV_setV_ne _ _ _ _ hy]

/-- A sequential result whose second operand is VF reads the flag in its place. -/
theorem getV_flagThenResult_vf_right (s : State) {x : RegIx} (f g : Byte → Byte → Byte)
    (h : s.params.vfAlias = .sequential) (hx : x ≠ vf) :
    (flagThenResult s x vf f g).getV x = g (s.getV x) (f (s.getV x) (s.getV vf)) := by
  rw [getV_flagThenResult_sequential s x vf f g h, State.getV_setV_same,
    State.getV_setV_ne _ _ _ _ hx]

/-- With both operands in one register, the result is the same operand twice: under either reading
it is `c` where `g` takes every such pair to `c`. -/
theorem getV_flagThenResult_diagonal (s : State) (x : RegIx) (f g : Byte → Byte → Byte) {c : Byte}
    (hg : ∀ a, g a a = c) : (flagThenResult s x x f g).getV x = c := by
  cases h : s.params.vfAlias with
  | sequential => rw [getV_flagThenResult_sequential s x x f g h, hg]
  | snapshot => rw [getV_flagThenResult_snapshot s x x f g h, hg]

/-- A result that reads V[y] alone reads its value before the instruction unless y is VF, whatever
the destination. -/
theorem getV_flagThenResult_of_right_ne (s : State) (x : RegIx) {y : RegIx}
    (f : Byte → Byte → Byte) (g : Byte → Byte) (hy : y ≠ vf) :
    (flagThenResult s x y f fun _ b => g b).getV x = g (s.getV y) := by
  cases h : s.params.vfAlias with
  | sequential =>
    rw [getV_flagThenResult_sequential s x y _ _ h, State.getV_setV_ne _ _ _ _ hy]
  | snapshot => exact getV_flagThenResult_snapshot s x y _ _ h

/-- A sequential result that reads VF alone reads the flag, whatever the destination. -/
theorem getV_flagThenResult_of_right_vf (s : State) (x : RegIx) (f : Byte → Byte → Byte)
    (g : Byte → Byte) (h : s.params.vfAlias = .sequential) :
    (flagThenResult s x vf f fun _ b => g b).getV x = g (f (s.getV x) (s.getV vf)) := by
  rw [getV_flagThenResult_sequential s x vf _ _ h, State.getV_setV_same]

/-- The corner cases that R111 and R112 share, for a result `g` that is `r` on numbers and 0 on
equal operands: the flag, the result of two operands that are not VF, and each VF_ALIAS where one
is. -/
theorem flagThenResult_corner_cases (s : State) (x y : RegIx) (f g : Byte → Byte → Byte)
    {r : Nat → Nat → Nat} (hr : ∀ a b, (g a b).toNat = r a.toNat b.toNat) (hg : ∀ a, g a a = 0) :
    (x ≠ vf → ((flagThenResult s x y f g).getV vf).toNat = (f (s.getV x) (s.getV y)).toNat) ∧
    (x ≠ vf → y ≠ vf →
      ((flagThenResult s x y f g).getV x).toNat = r (s.getV x).toNat (s.getV y).toNat) ∧
    (x = vf → y ≠ vf → s.params.vfAlias = .sequential →
      ((flagThenResult s x y f g).getV vf).toNat
        = r (f (s.getV x) (s.getV y)).toNat (s.getV y).toNat) ∧
    (x = vf → y ≠ vf → s.params.vfAlias = .snapshot →
      ((flagThenResult s x y f g).getV vf).toNat = r (s.getV vf).toNat (s.getV y).toNat) ∧
    (x ≠ vf → y = vf → s.params.vfAlias = .sequential →
      ((flagThenResult s x y f g).getV x).toNat
        = r (s.getV x).toNat (f (s.getV x) (s.getV y)).toNat) ∧
    (x ≠ vf → y = vf → s.params.vfAlias = .snapshot →
      ((flagThenResult s x y f g).getV x).toNat = r (s.getV x).toNat (s.getV vf).toNat) ∧
    (x = vf → y = vf → ((flagThenResult s x y f g).getV vf).toNat = 0) := by
  refine ⟨fun hx => ?_, fun hx hy => ?_, ?_, ?_, ?_, ?_, ?_⟩
  · rw [getV_vf_flagThenResult s y f g hx]
  · rw [getV_flagThenResult_of_ne s f g hx hy, hr]
  · rintro rfl hy hseq
    rw [getV_flagThenResult_vf_left s f g hseq hy, hr]
  · rintro rfl - hsnap
    rw [getV_flagThenResult_snapshot s vf y f g hsnap, hr]
  · rintro hx rfl hseq
    rw [getV_flagThenResult_vf_right s f g hseq hx, hr]
  · rintro - rfl hsnap
    rw [getV_flagThenResult_snapshot s x vf f g hsnap, hr]
  · rintro rfl rfl
    rw [getV_flagThenResult_diagonal s vf f g hg]
    rfl

end Sys2Proof.Machine

namespace Sys2Proof.Proofs

open Sys2Proof Sys2Proof.Machine Sys2Proof.Claims

/-- Settles O26: both write one register. -/
theorem loadImmediateAndCopy : Obligations.LoadImmediateAndCopy := by
  intro x y kk s
  refine ⟨decodeWord_encodeWord (i := .ldK x kk) rfl, decodeWord_encodeWord (i := .ldR x y) rfl,
    ⟨_, exec_ldK x kk s, ?_, rfl, (keeps_setV s x _).advance⟩,
    ⟨_, exec_ldR x y s, ?_, rfl, (keeps_setV s x _).advance⟩⟩
  · exact s.getV_setV_same x kk
  · exact s.getV_setV_same x (s.getV y)

/-- Settles O27: the byte sum is the sum modulo 256, and VF is in no write. -/
theorem addImmediateWithoutFlag : Obligations.AddImmediateWithoutFlag := by
  intro x kk s
  refine ⟨decodeWord_encodeWord (i := .addK x kk) rfl,
    _, exec_addK x kk s, ?_, rfl, (keeps_setV s x _).advance⟩
  rw [State.getV_advance, State.getV_setV_same, BitVec.toNat_add]

/-- Settles O28: each writes one register, with the bits of the byte operation. -/
theorem logicBitByBit : Obligations.LogicBitByBit := by
  intro x y s
  refine ⟨decodeWord_encodeWord (i := .orR x y) rfl, decodeWord_encodeWord (i := .andR x y) rfl,
    decodeWord_encodeWord (i := .xorR x y) rfl,
    ⟨_, exec_orR x y s, rfl, (keeps_setV s x _).advance, fun k _ => ?_⟩,
    ⟨_, exec_andR x y s, rfl, (keeps_setV s x _).advance, fun k _ => ?_⟩,
    ⟨_, exec_xorR x y s, rfl, (keeps_setV s x _).advance, fun k _ => ?_⟩⟩
  · rw [State.getV_advance, State.getV_setV_same, BitVec.getLsbD_or]
  · rw [State.getV_advance, State.getV_setV_same, BitVec.getLsbD_and]
  · rw [State.getV_advance, State.getV_setV_same, BitVec.getLsbD_xor]

/-- Settles O29: the result is written last, and VF keeps the carry unless it is the destination. -/
theorem addWithCarry : Obligations.AddWithCarry := by
  intro x y s
  refine ⟨decodeWord_encodeWord (i := .addR x y) rfl,
    _, exec_addR x y s, rfl, (keeps_setV_vf_setV s x _ _).advance, ?_, fun hx => ?_⟩
  · rw [State.getV_advance, State.getV_setV_same, BitVec.toNat_add]
  · rw [State.getV_advance, State.getV_setV_ne _ _ _ _ hx.symm, State.getV_setV_same,
      carryFlag_toNat]

/-- Settles O30: the corner cases of a flag and a result, for the difference of bytes. -/
theorem subtractWithNoBorrow : Obligations.SubtractWithNoBorrow := by
  intro x y s
  refine ⟨decodeWord_encodeWord (i := .sub x y) rfl,
    _, exec_sub x y s, flagThenResult_advance_pc s x y _ _,
    (keeps_flagThenResult s x y _ _).advance, fun f hf => ?_⟩
  rw [hf, ← noBorrowFlag_toNat]
  exact flagThenResult_corner_cases s x y noBorrowFlag (fun a b => a - b)
    (r := fun m n => (m + 256 - n) % 256) byte_sub_toNat BitVec.sub_self

/-- Settles O31: as O30, with flag and difference of the exchanged operands. -/
theorem reverseSubtractWithNoBorrow : Obligations.ReverseSubtractWithNoBorrow := by
  intro x y s
  refine ⟨decodeWord_encodeWord (i := .subn x y) rfl,
    _, exec_subn x y s, flagThenResult_advance_pc s x y _ _,
    (keeps_flagThenResult s x y _ _).advance, fun f hf => ?_⟩
  rw [hf, ← noBorrowFlag_toNat]
  exact flagThenResult_corner_cases s x y (fun a b => noBorrowFlag b a) (fun a b => b - a)
    (r := fun m n => (n + 256 - m) % 256) (fun a b => byte_sub_toNat b a) BitVec.sub_self

/-- Settles O32: the result reads V[y] alone; where that is the flag, a bit halved is 0. -/
theorem shiftRightOfVy : Obligations.ShiftRightOfVy := by
  intro x y s
  refine ⟨decodeWord_encodeWord (i := .shr x y) rfl,
    _, exec_shr x y s, flagThenResult_advance_pc s x y _ _,
    (keeps_flagThenResult s x y _ _).advance, fun hx => ?_, fun hy => ?_, ?_, ?_⟩
  · rw [State.getV_advance, getV_vf_flagThenResult s y _ _ hx, shiftRightFlag_toNat]
  · rw [State.getV_advance, getV_flagThenResult_of_right_ne s x _ (· >>> 1) hy,
      byte_shiftRight_toNat]
  · rintro rfl hseq
    rw [State.getV_advance, getV_flagThenResult_of_right_vf s x _ (· >>> 1) hseq,
      byte_shiftRight_toNat, shiftRightFlag_toNat]
    omega
  · rintro rfl hsnap
    rw [State.getV_advance, getV_flagThenResult_snapshot s x vf _ _ hsnap, byte_shiftRight_toNat]

/-- Settles O33: the result reads V[y] alone; where that is the flag, doubling the bit never
wraps. -/
theorem shiftLeftOfVy : Obligations.ShiftLeftOfVy := by
  intro x y s
  refine ⟨decodeWord_encodeWord (i := .shl x y) rfl,
    _, exec_shl x y s, flagThenResult_advance_pc s x y _ _,
    (keeps_flagThenResult s x y _ _).advance, fun hx => ?_, fun hy => ?_, ?_, ?_⟩
  · rw [State.getV_advance, getV_vf_flagThenResult s y _ _ hx, shiftLeftFlag_toNat]
  · rw [State.getV_advance, getV_flagThenResult_of_right_ne s x _ (· <<< 1) hy,
      byte_shiftLeft_toNat]
  · rintro rfl hseq
    have hvf := (s.getV vf).isLt
    rw [State.getV_advance, getV_flagThenResult_of_right_vf s x _ (· <<< 1) hseq,
      byte_shiftLeft_toNat, shiftLeftFlag_toNat]
    omega
  · rintro rfl hsnap
    rw [State.getV_advance, getV_flagThenResult_snapshot s x vf _ _ hsnap, byte_shiftLeft_toNat]

end Sys2Proof.Proofs
end

section
/-!
PROOFS. Index register and memory (spec/42_index_and_memory.md): the frames of an index write, a
block store and a block load, the bytes they leave, and with them Annn, Fx1E, Fx29, Fx33, Fx55 and
Fx65.
-/

namespace Sys2Proof.Claims

open Sys2Proof Sys2Proof.Machine

/-! ## Frames -/

@[simp] theorem byte_mem_blockBytes {base count a : Nat} :
    Part.byte a ∈ blockBytes base count ↔ base ≤ a ∧ a < base + count := by
  simp [blockBytes]

@[simp] theorem reg_mem_blockRegs {x r : RegIx} : Part.reg r ∈ blockRegs x ↔ r ≤ x := by
  simp [blockRegs]

/-- Writing I, where the frame leaves it open, keeps the frame. -/
theorem Keeps.setIndex {may : List Part} {s t : State} (h : Keeps may s t)
    (hindex : Part.index ∈ may) (w : Word) : Keeps may s (t.setIndex w) :=
  { h with index := fun hn => absurd hindex hn }

theorem Keeps.bumpIndex {may : List Part} {s t : State} (h : Keeps may s t)
    (hindex : Part.index ∈ may) (x : RegIx) : Keeps may s (t.bumpIndex x) :=
  h.setIndex hindex _

/-- Storing bytes that the frame leaves open keeps the frame. -/
theorem Keeps.writeBytes {may : List Part} {s t : State} (h : Keeps may s t) {base : Nat}
    {bytes : List Byte} (hmay : blockBytes base bytes.length ⊆ may) :
    Keeps may s (t.setMem (Memory.writeBytes t.mem base bytes)) :=
  { h with
    bytes := fun a ha => by
      have hout : Part.byte a ∉ blockBytes base bytes.length := fun hin => ha (hmay hin)
      rw [byte_mem_blockBytes] at hout
      exact (Memory.read_writeBytes_ne t.mem bytes (by omega)).trans (h.bytes a ha) }

/-- Loading V[0] to V[x], which the frame leaves open, keeps the frame. -/
theorem Keeps.setRegBlock {may : List Part} {s t : State} (h : Keeps may s t) {x : RegIx}
    {bytes : List Byte} (hlen : bytes.length = x.val + 1) (hmay : blockRegs x ⊆ may) :
    Keeps may s (t.setRegBlock bytes) :=
  { h with
    regs := fun r hr => by
      have hout : x < r := lt_of_not_ge fun hle => hr (hmay (reg_mem_blockRegs.2 hle))
      have hlong : bytes.length ≤ r.val := hlen.trans_le (Nat.succ_le_of_lt hout)
      rw [State.getV_setRegBlock, List.getD_eq_default _ _ hlong, h.regs r hr] }

/-- Writing I changes I alone. -/
theorem keeps_setIndex (s : State) (w : Word) : Keeps [.index] s (s.setIndex w) :=
  (Keeps.refl _ s).setIndex List.mem_cons_self w

end Sys2Proof.Claims

namespace Sys2Proof.Machine

open Sys2Proof

/-! ## The meanings -/

theorem exec_ldI (nnn : BitVec 12) (s : State) :
    exec (.ldI nnn) s = .next (s.setIndex (addrOperand nnn)).advance := rfl

theorem exec_addI (x : RegIx) (s : State) :
    exec (.addI x) s = .next (s.setIndex (s.index + byteOperand (s.getV x))).advance := rfl

theorem exec_ldF (x : RegIx) (s : State) :
    exec (.ldF x) s = .next (s.setIndex (5 * byteOperand (s.getV x))).advance := rfl

theorem exec_ldB (x : RegIx) (s : State) :
    exec (.ldB x) s = storeThen s s.base (decimalDigits (s.getV x)) fun t => .next t.advance := rfl

theorem exec_ldMI (x : RegIx) (s : State) :
    exec (.ldMI x) s =
      storeThen s s.base (s.regBlock x) fun t => .next (t.bumpIndex x).advance := rfl

theorem exec_ldVMI (x : RegIx) (s : State) :
    exec (.ldVMI x) s = loadThen s s.base (x.val + 1) fun bytes =>
      .next ((s.setRegBlock bytes).bumpIndex x).advance := rfl

/-! ## Values -/

theorem index_add_byteOperand_toNat (w : Word) (b : Byte) :
    (w + byteOperand b).toNat = (w.toNat + b.toNat) % 65536 := by
  rw [BitVec.toNat_add, byteOperand_toNat]

/-- Five times a byte never wraps 16 bits (R123). -/
theorem five_mul_byteOperand_toNat (b : Byte) : (5 * byteOperand b).toNat = 5 * b.toNat := by
  have hb := b.isLt
  have hfive : (5 : Word).toNat = 5 := rfl
  rw [BitVec.toNat_mul, byteOperand_toNat, hfive]
  omega

theorem decimalDigits_ne_nil (b : Byte) : decimalDigits b ≠ [] := List.cons_ne_nil _ _

/-- The three digits as numbers: each fits a byte (R124). -/
theorem decimalDigits_toNat (b : Byte) :
    ((decimalDigits b)[0]).toNat = b.toNat / 100 ∧
    ((decimalDigits b)[1]).toNat = b.toNat / 10 % 10 ∧
    ((decimalDigits b)[2]).toNat = b.toNat % 10 := by
  have hb := b.isLt
  have hfits {n : Nat} (hn : n < 256) : (BitVec.ofNat 8 n).toNat = n := Nat.mod_eq_of_lt hn
  exact ⟨hfits (by omega), hfits (by omega), hfits (by omega)⟩

/-- After a block store each address of the block holds its byte. -/
theorem State.byteAt_writeBytes (s : State) {base : Nat} {bytes : List Byte}
    (hwf : Memory.wf s.mem = true) (hrange : base + bytes.length ≤ Config.maxAddr + 1) (k : Nat)
    (hk : k < bytes.length) :
    (s.setMem (Memory.writeBytes s.mem base bytes)).byteAt (base + k) = bytes[k] :=
  Memory.read_writeBytes_in hwf hrange k hk

/-- After a block load each register of the block holds its byte. -/
theorem State.getV_setRegBlock_bytesFrom (s : State) (base : Nat) {x k : RegIx} (hk : k ≤ x) :
    (s.setRegBlock (s.bytesFrom base (x.val + 1))).getV k = s.byteAt (base + k.val) := by
  have hlt : k.val < x.val + 1 := Nat.lt_succ_of_le hk
  rw [State.getV_setRegBlock, List.getD_eq_getElem _ _ (by rwa [s.bytesFrom_length]),
    s.bytesFrom_getElem _ _ _ hlt]

end Sys2Proof.Machine

namespace Sys2Proof.Proofs

open Sys2Proof Sys2Proof.Machine Sys2Proof.Claims

/-- Settles O35: Annn is `setIndex` of the widened address. -/
theorem loadIndex : Obligations.LoadIndex := by
  intro nnn s
  exact ⟨decodeWord_encodeWord (i := .ldI nnn) rfl, _, exec_ldI nnn s, addrOperand_toNat nnn, rfl,
    (keeps_setIndex s _).advance⟩

/-- Settles O36: both are `setIndex`, of a sum that wraps and of a product that does not. -/
theorem indexArithmetic : Obligations.IndexArithmetic := by
  intro x s
  exact ⟨decodeWord_encodeWord (i := .addI x) rfl, decodeWord_encodeWord (i := .ldF x) rfl,
    ⟨_, exec_addI x s, index_add_byteOperand_toNat s.index (s.getV x), rfl,
      (keeps_setIndex s _).advance⟩,
    ⟨_, exec_ldF x s, five_mul_byteOperand_toNat (s.getV x), rfl, (keeps_setIndex s _).advance⟩⟩

/-- Settles O37: an allowed store of the three digits, or the fault of a block that leaves the
address space. -/
theorem decimalDigitsStored : Obligations.DecimalDigitsStored := by
  intro x s
  refine ⟨decodeWord_encodeWord (i := .ldB x) rfl, fun hwf hrange hallowed => ?_, fun habove => ?_⟩
  · have hexec := (exec_ldB x s).trans (storeThen_next s _ hrange hallowed)
    have hbyte := s.byteAt_writeBytes (bytes := decimalDigits (s.getV x)) hwf hrange
    obtain ⟨hhundreds, htens, hones⟩ := decimalDigits_toNat (s.getV x)
    refine ⟨_, hexec, ?_, ?_, ?_, rfl,
      (Keeps.writeBytes (bytes := decimalDigits (s.getV x)) (Keeps.refl _ s)
        (List.Subset.refl _)).advance⟩
    · exact (congrArg BitVec.toNat (hbyte 0 (by simp))).trans hhundreds
    · exact (congrArg BitVec.toNat (hbyte 1 (by simp))).trans htens
    · exact (congrArg BitVec.toNat (hbyte 2 (by simp))).trans hones
  · have hout : 0x1000 < s.base + 3 := Nat.succ_lt_succ habove
    exact ⟨_, (exec_ldB x s).trans (storeThen_outOfRange s _ (decimalDigits_ne_nil _) hout)⟩

/-- Settles O38: an allowed store of the register block and an index bump, or the fault of a block
that leaves the address space. -/
theorem registerBlockStored : Obligations.RegisterBlockStored := by
  intro x s
  have hlen := s.regBlock_length x
  refine ⟨decodeWord_encodeWord (i := .ldMI x) rfl, fun hwf hrange hallowed => ?_, fun habove => ?_⟩
  · have hin : s.base + (s.regBlock x).length ≤ Config.maxAddr + 1 := hlen.symm ▸ hrange
    have hexec := (exec_ldMI x s).trans (storeThen_next s _ hin hallowed)
    refine ⟨_, hexec, fun k hk => ?_, State.bumpIndex_toNat _ x, rfl, ?_⟩
    · exact (s.byteAt_writeBytes hwf hin k.val _).trans (s.regBlock_getElem x k hk)
    · rw [← hlen]
      exact (((Keeps.refl _ s).writeBytes (List.subset_cons_self _ _)).bumpIndex
        List.mem_cons_self x).advance
  · have hout : 0x1000 < s.base + (s.regBlock x).length := by omega
    exact ⟨_, (exec_ldMI x s).trans (storeThen_outOfRange s _ (s.regBlock_ne_nil x) hout)⟩

/-- Settles O39: a load of the register block and an index bump, or the fault of a block that leaves
the address space. -/
theorem registerBlockLoaded : Obligations.RegisterBlockLoaded := by
  intro x s
  refine ⟨decodeWord_encodeWord (i := .ldVMI x) rfl, fun hrange => ?_, fun habove => ?_⟩
  · have hexec := (exec_ldVMI x s).trans (loadThen_inRange s _ (.inr hrange))
    have hframe := (Keeps.refl (.index :: blockRegs x) s).setRegBlock
      (s.bytesFrom_length s.base (x.val + 1)) (List.subset_cons_self _ _)
    exact ⟨_, hexec, fun k hk => s.getV_setRegBlock_bytesFrom s.base hk, State.bumpIndex_toNat _ x,
      rfl, (hframe.bumpIndex List.mem_cons_self x).advance⟩
  · have hout : 0x1000 < s.base + (x.val + 1) := Nat.succ_lt_succ habove
    exact ⟨_, (exec_ldVMI x s).trans (loadThen_outOfRange s _ (Nat.succ_ne_zero _) hout)⟩

end Sys2Proof.Proofs
end

section
/-!
PROOFS. The sprite engine (spec/43_display.md): the cells a sprite's 1 bits lie on, what drawing
them does to the display and to the flag, and with them the XOR, wrap, collision and self-inverse rules.
-/

namespace Sys2Proof.Claims

open Sys2Proof Sys2Proof.Machine

/-! ## The cells a sprite lights -/

/-- The cells under the 1 bits among the first `width` columns of one sprite row. -/
def rowCells (sx sy row : Nat) (byte : Byte) (width px py : Nat) : Prop :=
  ∃ col < width, byte.getLsbD (7 - col) = true ∧ under sx sy row col px py

/-- The cells under the 1 bits of the sprite rows `bytes`, drawn from row number `row` on. -/
def spriteCells (sx sy row : Nat) (bytes : List Byte) (px py : Nat) : Prop :=
  ∃ r < bytes.length, rowCells sx sy (row + r) (bytes.getD r 0) 8 px py

/-- A cell lies under one pixel of a sprite at most: 32 rows and 64 columns do not wrap onto
themselves. -/
theorem under_unique {sx sy row col row' col' px py : Nat} (h : under sx sy row col px py)
    (h' : under sx sy row' col' px py) (hrow : row < row' + 32) (hrow' : row' < row + 32)
    (hcol : col < 64) (hcol' : col' < 64) : row = row' ∧ col = col' := by
  obtain ⟨hx, hy⟩ := h
  obtain ⟨hx', hy'⟩ := h'
  omega

theorem rowCells_succ (sx sy row : Nat) (byte : Byte) (width px py : Nat) :
    rowCells sx sy row byte (width + 1) px py ↔ rowCells sx sy row byte width px py ∨
      (byte.getLsbD (7 - width) = true ∧ under sx sy row width px py) :=
  Nat.exists_lt_succ_right

theorem spriteCells_cons (sx sy row : Nat) (byte : Byte) (bytes : List Byte) (px py : Nat) :
    spriteCells sx sy row (byte :: bytes) px py ↔
      rowCells sx sy row byte 8 px py ∨ spriteCells sx sy (row + 1) bytes px py := by
  simp only [spriteCells, List.length_cons, Nat.exists_lt_succ_left, Nat.add_right_comm row 1]
  rfl

/-- The cell under a sprite pixel is lit exactly when the pixel's bit is 1. -/
theorem spriteCells_at {sx sy row col : Nat} {bytes : List Byte} (hlen : bytes.length ≤ 15)
    (hrow : row < bytes.length) (hcol : col < 8) :
    spriteCells sx sy 0 bytes (sx + col) (sy + row) ↔ spriteBit bytes row col = true := by
  constructor
  · rintro ⟨r, hr, c, hc, hbit, hunder⟩
    have hself : under sx sy row col (sx + col) (sy + row) := ⟨rfl, rfl⟩
    obtain ⟨hrows, rfl⟩ := under_unique hself hunder (by omega) (by omega) (by omega) (by omega)
    rwa [hrows, Nat.zero_add]
  · intro hbit
    exact ⟨row, hrow, col, hcol, hbit, rfl, by rw [Nat.zero_add]⟩

/-! ## Drawing a set of cells -/

/-- From `a` to `b` the cells of `lit` were inverted and no other, and the flag was raised exactly
when one of them was set. -/
structure Inverts (lit : Nat → Nat → Prop) (a b : Display × Bool) : Prop where
  inside : ∀ px py, lit px py → Display.getPixel b.1 px py = !Display.getPixel a.1 px py
  outside : ∀ px py, ¬ lit px py → Display.getPixel b.1 px py = Display.getPixel a.1 px py
  flag : b.2 = true ↔ a.2 = true ∨ ∃ px py, lit px py ∧ Display.getPixel a.1 px py = true

/-- Drawing no cell changes nothing. -/
theorem Inverts.of_empty {lit : Nat → Nat → Prop} (hnone : ∀ px py, ¬ lit px py)
    (a : Display × Bool) : Inverts lit a a where
  inside px py h := absurd h (hnone px py)
  outside _ _ _ := rfl
  flag := by simp [hnone]

/-- Two draws on disjoint sets of cells are one draw on their union: what the second finds on its
cells is what stood there before the first. -/
theorem Inverts.trans {lit₁ lit₂ lit : Nat → Nat → Prop} {a b c : Display × Bool}
    (hab : Inverts lit₁ a b) (hbc : Inverts lit₂ b c)
    (hdisj : ∀ px py, lit₁ px py → ¬ lit₂ px py)
    (hunion : ∀ px py, lit px py ↔ lit₁ px py ∨ lit₂ px py) : Inverts lit a c where
  inside px py h := by
    rcases (hunion px py).1 h with h₁ | h₂
    · rw [hbc.outside px py (hdisj px py h₁), hab.inside px py h₁]
    · rw [hbc.inside px py h₂, hab.outside px py fun h₁ => hdisj px py h₁ h₂]
  outside px py h := by
    rw [hunion, not_or] at h
    rw [hbc.outside px py h.2, hab.outside px py h.1]
  flag := by
    have hsame : ∀ px py, (lit₂ px py ∧ Display.getPixel b.1 px py = true) ↔
        (lit₂ px py ∧ Display.getPixel a.1 px py = true) := fun px py =>
      and_congr_right fun h₂ => by
        rw [hab.outside px py fun h₁ => hdisj px py h₁ h₂]
    simp only [hbc.flag, hab.flag, hsame, hunion, or_and_right, exists_or, or_assoc]

/-- One sprite pixel inverts its cell if its bit is 1 (R131, R132). -/
theorem inverts_drawPixel (sx sy row : Nat) (byte : Byte) (acc : Display × Bool) (col : Nat) :
    Inverts (fun px py => byte.getLsbD (7 - col) = true ∧ under sx sy row col px py)
      acc (drawPixel sx sy row byte acc col) where
  inside px py h := by
    obtain ⟨hbit, hunder⟩ := h
    rw [getPixel_drawPixel, if_pos hunder, hbit, Bool.xor_true]
  outside px py h := by
    rw [getPixel_drawPixel]
    split
    next hunder =>
      have hbit : byte.getLsbD (7 - col) = false :=
        Bool.eq_false_of_not_eq_true fun hb => h ⟨hb, hunder⟩
      rw [hbit, Bool.xor_false]
    next => rfl
  flag := by
    rw [drawPixel_collision, Bool.or_eq_true, Bool.and_eq_true]
    refine or_congr_right ⟨fun ⟨hset, hbit⟩ => ⟨_, _, ⟨hbit, rfl, rfl⟩, hset⟩, ?_⟩
    rintro ⟨px, py, ⟨hbit, hx, hy⟩, hset⟩
    exact ⟨(Display.getPixel_congr acc.1 hx hy).symm.trans hset, hbit⟩

/-- The first `width` pixels of a sprite row, by adding the columns one at a time. -/
theorem inverts_foldl_drawPixel (sx sy row : Nat) (byte : Byte) (acc : Display × Bool)
    {width : Nat} (hwidth : width ≤ 8) :
    Inverts (rowCells sx sy row byte width) acc
      ((List.range width).foldl (drawPixel sx sy row byte) acc) := by
  induction width with
  | zero => exact Inverts.of_empty (fun _ _ ⟨_, hcol, _⟩ => absurd hcol (Nat.not_lt_zero _)) acc
  | succ width ih =>
    rw [List.range_succ, List.foldl_append]
    refine (ih (by omega)).trans (inverts_drawPixel sx sy row byte _ width) ?_
      (rowCells_succ sx sy row byte width)
    rintro px py ⟨col, hcol, -, hunder⟩ ⟨-, hunder'⟩
    obtain ⟨-, hcols⟩ := under_unique hunder hunder' (by omega) (by omega) (by omega) (by omega)
    omega

/-- The rows of a sprite, none of which wraps onto another. -/
theorem inverts_drawRows (sx sy : Nat) (bytes : List Byte) (row : Nat) (acc : Display × Bool)
    (hlen : bytes.length ≤ 15) :
    Inverts (spriteCells sx sy row bytes) acc (drawRows sx sy row bytes acc) := by
  induction bytes generalizing row acc with
  | nil => exact Inverts.of_empty (fun _ _ ⟨_, hr, _⟩ => absurd hr (Nat.not_lt_zero _)) acc
  | cons byte bytes ih =>
    rw [List.length_cons] at hlen
    refine (inverts_foldl_drawPixel sx sy row byte acc le_rfl).trans
      (ih (row + 1) _ (by omega)) ?_ (spriteCells_cons sx sy row byte bytes)
    rintro px py ⟨col, hcol, -, hunder⟩ ⟨r, hr, col', hcol', -, hunder'⟩
    obtain ⟨hrows, -⟩ := under_unique hunder hunder' (by omega) (by omega) (by omega) (by omega)
    omega

/-- A sprite draw inverts the cells under its 1 bits (R131, R132, R134). -/
theorem inverts_drawSprite (sx sy : Nat) {bytes : List Byte} (d : Display)
    (hlen : bytes.length ≤ 15) :
    Inverts (spriteCells sx sy 0 bytes) (d, false) (drawSprite sx sy bytes d) :=
  inverts_drawRows sx sy bytes 0 (d, false) hlen

/-- The draw collides exactly when a cell under a 1 bit was set. -/
theorem drawSprite_collides_iff (sx sy : Nat) {bytes : List Byte} (d : Display)
    (hlen : bytes.length ≤ 15) :
    (drawSprite sx sy bytes d).2 = true ↔
      ∃ px py, spriteCells sx sy 0 bytes px py ∧ Display.getPixel d px py = true := by
  simpa using (inverts_drawSprite sx sy d hlen).flag

end Sys2Proof.Claims

namespace Sys2Proof.Proofs

open Sys2Proof Sys2Proof.Machine Sys2Proof.Claims

/-- Settles O43: the cell under a sprite pixel is lit exactly when the pixel's bit is 1, and a draw
inverts the lit cells alone. -/
theorem spriteXorsWrappedCells : Obligations.SpriteXorsWrappedCells := by
  intro sx sy bytes d hlen
  have hdraw := inverts_drawSprite sx sy d hlen
  refine ⟨fun row hrow col hcol => ?_, fun px py hout => ?_, ?_⟩
  · have hlit := spriteCells_at (sx := sx) (sy := sy) hlen hrow hcol
    cases hbit : spriteBit bytes row col with
    | true => rw [hdraw.inside _ _ (hlit.2 hbit), Bool.xor_true]
    | false => rw [hdraw.outside _ _ (by simp [hlit, hbit]), Bool.xor_false]
  · refine hdraw.outside px py ?_
    rintro ⟨row, hrow, col, hcol, -, hunder⟩
    exact hout row hrow col hcol (Nat.zero_add row ▸ hunder)
  · rw [drawSprite_collides_iff sx sy d hlen]
    constructor
    · rintro ⟨px, py, ⟨row, hrow, col, hcol, hbit, hx, hy⟩, hset⟩
      rw [Nat.zero_add] at hy
      exact ⟨row, hrow, col, hcol, hbit, (Display.getPixel_congr d hx hy).symm.trans hset⟩
    · rintro ⟨row, hrow, col, hcol, hbit, hset⟩
      exact ⟨_, _, (spriteCells_at hlen hrow hcol).2 hbit, hset⟩

/-- Settles O44: both draws invert the same cells, so the second finds a lit cell set exactly where
the first found it clear. -/
theorem spriteDrawIsSelfInverse : Obligations.SpriteDrawIsSelfInverse := by
  intro sx sy bytes d hlen
  have hfirst := inverts_drawSprite sx sy d hlen
  have hsecond := inverts_drawSprite sx sy (drawSprite sx sy bytes d).1 hlen
  constructor
  · refine Display.ext_getPixel fun px py => ?_
    by_cases hlit : spriteCells sx sy 0 bytes px py
    · rw [hsecond.inside px py hlit, hfirst.inside px py hlit, Bool.not_not]
    · rw [hsecond.outside px py hlit, hfirst.outside px py hlit]
  · rw [drawSprite_collides_iff sx sy _ hlen]
    refine exists₂_congr fun px py => ?_
    by_cases hlit : spriteCells sx sy 0 bytes px py
    · simp [hlit, hfirst.inside px py hlit]
    · simp [hlit, hfirst.outside px py hlit]

end Sys2Proof.Proofs
end

section
/-!
PROOFS. Key input and timers (spec/44_input_and_timers.md): the frames of a free draw and of the
timer writes, when a key can be drawn, and with them Fx07, Fx0A, Fx15 and Fx18.
-/

namespace Sys2Proof.Claims

open Sys2Proof Sys2Proof.Machine

/-! ## Frames -/

/-- Counting a free draw, where the frame leaves the counter open, keeps the frame. -/
theorem Keeps.countDraw {may : List Part} {s t : State} (h : Keeps may s t)
    (hdraws : Part.draws ∈ may) : Keeps may s t.countDraw :=
  { h with draws := fun hn => absurd hdraws hn }

/-- Writing DT changes DT alone. -/
theorem keeps_setDt (s : State) (b : Byte) : Keeps [.delay] s (s.setDt b) :=
  { Keeps.refl [.delay] s with delay := fun hn => absurd List.mem_cons_self hn }

/-- Writing ST changes ST alone. -/
theorem keeps_setSt (s : State) (b : Byte) : Keeps [.sound] s (s.setSt b) :=
  { Keeps.refl [.sound] s with sound := fun hn => absurd List.mem_cons_self hn }

/-- Drawing a key changes at most the draw counter (log 10). -/
theorem keeps_drawKey {may : List Part} {s t : State} {k : KeyIx}
    (hdraw : s.drawKey = some (k, t)) (hdraws : Part.draws ∈ may) : Keeps may s t := by
  obtain ⟨-, rfl | rfl⟩ := s.drawKey_some hdraw
  · exact Keeps.refl _ t
  · exact (Keeps.refl _ s).countDraw hdraws

end Sys2Proof.Claims

namespace Sys2Proof.Machine

open Sys2Proof

/-! ## Drawing a key -/

/-- There is no key to draw exactly when none is pressed. -/
theorem State.drawKey_eq_none_iff (s : State) :
    s.drawKey = none ↔ ∀ k : KeyIx, s.keys[k.val] = false := by
  simp only [State.drawKey_eq_none, List.eq_nil_iff_forall_not_mem, State.mem_pressedKeys,
    Bool.not_eq_true]

/-- A pressed key makes a draw succeed. -/
theorem State.drawKey_of_pressed (s : State) (h : ∃ k : KeyIx, s.keys[k.val] = true) :
    ∃ k t, s.drawKey = some (k, t) := by
  obtain ⟨k, hk⟩ := h
  have hsome : s.drawKey ≠ none := fun hnone => by
    rw [s.drawKey_eq_none_iff.1 hnone k] at hk
    exact Bool.false_ne_true hk
  obtain ⟨⟨j, t⟩, hdraw⟩ := Option.ne_none_iff_exists'.1 hsome
  exact ⟨j, t, hdraw⟩

/-- A draw leaves PC where it was. -/
theorem State.drawKey_pc {s t : State} {k : KeyIx} (h : s.drawKey = some (k, t)) :
    t.pc = s.pc := by
  obtain ⟨-, rfl | rfl⟩ := s.drawKey_some h <;> rfl

/-- A key's number fits the byte that Fx0A stores. -/
theorem keyByte_toNat (k : KeyIx) : (BitVec.ofNat 8 k.val).toNat = k.val := by
  rw [BitVec.toNat_ofNat]
  omega

/-! ## The meanings -/

theorem exec_ldVDT (x : RegIx) (s : State) :
    exec (.ldVDT x) s = .next (s.setV x s.dt).advance := rfl

theorem exec_ldDTV (x : RegIx) (s : State) :
    exec (.ldDTV x) s = .next (s.setDt (s.getV x)).advance := rfl

theorem exec_ldSTV (x : RegIx) (s : State) :
    exec (.ldSTV x) s = .next (s.setSt (s.getV x)).advance := rfl

/-- Fx0A with no key to draw is its own next state. -/
theorem exec_ldVK_none (x : RegIx) {s : State} (h : s.drawKey = none) :
    exec (.ldVK x) s = .next s := by
  simp only [exec, execLdVK, h]

/-- Fx0A stores the key it draws. -/
theorem exec_ldVK_some (x : RegIx) {s t : State} {k : KeyIx} (h : s.drawKey = some (k, t)) :
    exec (.ldVK x) s = .next (t.setV x (BitVec.ofNat 8 k.val)).advance := by
  simp only [exec, execLdVK, h]

/-- The tone sounds exactly while ST is not 0 (R147). -/
theorem State.toneOn_iff (s : State) : s.toneOn = true ↔ s.st ≠ 0 := decide_eq_true_iff

end Sys2Proof.Machine

namespace Sys2Proof.Proofs

open Sys2Proof Sys2Proof.Machine Sys2Proof.Claims

/-- Settles O47: with no key pressed nothing is drawn; with one pressed the draw gives a pressed
key and touches the draw counter alone. -/
theorem waitForKey : Obligations.WaitForKey := by
  intro x s
  refine ⟨decodeWord_encodeWord (i := .ldVK x) rfl, fun hidle => ?_, fun hpressed => ?_⟩
  · exact exec_ldVK_none x (s.drawKey_eq_none_iff.2 hidle)
  · obtain ⟨k, t, hdraw⟩ := s.drawKey_of_pressed hpressed
    have hkeeps : Keeps [.reg x, .draws] s t :=
      keeps_drawKey hdraw (List.mem_cons_of_mem _ List.mem_cons_self)
    refine ⟨_, k, exec_ldVK_some x hdraw, (s.drawKey_some hdraw).1, ?_, ?_,
      (hkeeps.setV List.mem_cons_self _).advance⟩
    · rw [State.getV_advance, State.getV_setV_same, keyByte_toNat]
    · rw [State.advance_pc, State.setV_pc, State.drawKey_pc hdraw]

/-- Settles O48: each is one write, to V[x], DT or ST, and the tone follows ST. -/
theorem timerInstructions : Obligations.TimerInstructions := by
  intro x s
  exact ⟨decodeWord_encodeWord (i := .ldVDT x) rfl, decodeWord_encodeWord (i := .ldDTV x) rfl,
    decodeWord_encodeWord (i := .ldSTV x) rfl,
    ⟨_, exec_ldVDT x s, s.getV_setV_same x s.dt, rfl, (keeps_setV s x _).advance⟩,
    ⟨_, exec_ldDTV x s, rfl, rfl, (keeps_setDt s _).advance⟩,
    ⟨_, exec_ldSTV x s, rfl, rfl, State.toneOn_iff _, (keeps_setSt s _).advance⟩⟩

end Sys2Proof.Proofs
end

section
/-!
PROOFS. Faults and timer ticks (spec/60_exceptions.md): what the `step()` transaction leaves when
the step fails, the frames of the two ticks, and with them R150, R162 and R163.
-/

namespace Sys2Proof.Claims

open Sys2Proof Sys2Proof.Machine

/-- A delay tick changes DT alone. -/
theorem keeps_tickDelay (s : State) : Keeps [.delay] s s.tickDelay := keeps_setDt s (countDown s.dt)

/-- A sound tick changes ST alone. -/
theorem keeps_tickSound (s : State) : Keeps [.sound] s s.tickSound := keeps_setSt s (countDown s.st)

end Sys2Proof.Claims

namespace Sys2Proof.Machine

open Sys2Proof

/-- The transaction of a failing step leaves the state before it with the fault in HALT (R150). -/
theorem transact_step_of_fault {s : State} {f : Fault} (h : step s = .fault f) :
    transact .step s = (s.setHalt (some f), .fault f) := by
  simp only [transact, h, commit, State.recordFault]

@[simp] theorem State.tickDelay_pc (s : State) : s.tickDelay.pc = s.pc := s.setDt_pc _
@[simp] theorem State.tickSound_pc (s : State) : s.tickSound.pc = s.pc := s.setSt_pc _

/-- R162: DT less one, clamped at 0. -/
@[simp] theorem State.tickDelay_dt_toNat (s : State) : s.tickDelay.dt.toNat = s.dt.toNat - 1 :=
  countDown_toNat s.dt

/-- R163: ST less one, clamped at 0. -/
@[simp] theorem State.tickSound_st_toNat (s : State) : s.tickSound.st.toNat = s.st.toNat - 1 :=
  countDown_toNat s.st

end Sys2Proof.Machine

namespace Sys2Proof.Proofs

open Sys2Proof Sys2Proof.Machine Sys2Proof.Claims

/-- Settles O8: a failing step's transaction is one write, to HALT, and `setHalt` leaves every
other field. -/
theorem failingStepChangesOnlyHalt : Obligations.FailingStepChangesOnlyHalt := by
  intro s f hfault
  exact ⟨s.setHalt (some f), transact_step_of_fault hfault, s.setHalt_mem _, s.setHalt_v _,
    s.setHalt_index _, s.setHalt_pc _, s.setHalt_stack _, s.setHalt_sp _, s.setHalt_dt _,
    s.setHalt_st _, s.setHalt_disp _, s.setHalt_halt _⟩

/-- Settles O49: each tick is one write of its own timer, and the value written is the countdown. -/
theorem ticksCountDown : Obligations.TicksCountDown := by
  intro s
  exact ⟨⟨s.tickDelay_dt_toNat, s.tickDelay_pc, keeps_tickDelay s⟩,
    ⟨s.tickSound_st_toNat, s.tickSound_pc, keeps_tickSound s⟩⟩

end Sys2Proof.Proofs
end

section
/-!
PROOFS. Reset (spec/70_reset_and_hazards.md): where a font's glyph bytes lie, what each piece of the
state is after the host's `reset()`, and with them R171.
-/

namespace Sys2Proof.Machine

open Sys2Proof

/-! ## The bytes a reset installs -/

/-- The glyphs lie one after the other from address 0, five bytes each (R33). -/
theorem resetByteOf_glyph (font : Config.FontData) (d : Fin 16) (j : Fin 5) :
    resetByteOf font (5 * d.val + j.val) = (font[d.val])[j.val] := by
  have hin : 5 * d.val + j.val < 80 := by omega
  have hglyph : (5 * d.val + j.val) / 5 = d.val := by omega
  have hbyte : (5 * d.val + j.val) % 5 = j.val := by omega
  rw [resetByteOf, dif_pos hin]
  simp only [hglyph, hbyte]

/-- Above the font region a reset leaves 0 (R46). -/
theorem resetByteOf_of_ge (font : Config.FontData) {a : Nat} (h : 0x50 ≤ a) :
    resetByteOf font a = 0 := dif_neg (Nat.not_lt.mpr h)

/-! ## The state after a reset -/

section
variable (s : State)

@[simp] theorem State.byteAt_resetBlock (a : Nat) :
    s.resetBlock.byteAt a = resetByteOf s.params.font a := read_resetMemory s.params.font a

@[simp] theorem State.getV_resetBlock (r : RegIx) : s.resetBlock.getV r = 0 :=
  Vector.getElem_replicate r.isLt

@[simp] theorem State.resetBlock_stack (k : Fin 16) : s.resetBlock.stack[k.val] = 0 :=
  Vector.getElem_replicate k.isLt

@[simp] theorem State.resetBlock_disp : s.resetBlock.disp = Display.clear := rfl
@[simp] theorem State.resetBlock_index : s.resetBlock.index = 0 := rfl
@[simp] theorem State.resetBlock_pc : s.resetBlock.pc = 0x200 := rfl
@[simp] theorem State.resetBlock_sp : s.resetBlock.sp = 0 := rfl
@[simp] theorem State.resetBlock_dt : s.resetBlock.dt = 0 := rfl
@[simp] theorem State.resetBlock_st : s.resetBlock.st = 0 := rfl
@[simp] theorem State.resetBlock_halt : s.resetBlock.halt = none := rfl

end

end Sys2Proof.Machine

namespace Sys2Proof.Proofs

open Sys2Proof Sys2Proof.Machine Sys2Proof.Claims

/-- Settles O51: `reset()` leaves `resetBlock`, whose memory is that of the installed font and whose
other pieces do not depend on the state before. -/
theorem resetFromAnyState : Obligations.ResetFromAnyState := by
  intro s
  refine ⟨s.resetBlock, rfl, fun d j => ?glyphs, fun a ha => ?above, s.getV_resetBlock,
    s.resetBlock_index, s.resetBlock_pc, s.resetBlock_stack, s.resetBlock_sp, s.resetBlock_dt,
    s.resetBlock_st, fun px py => ?display, s.resetBlock_halt⟩
  case glyphs => rw [s.byteAt_resetBlock, resetByteOf_glyph]
  case above => rw [s.byteAt_resetBlock, resetByteOf_of_ge _ ha]
  case display => rw [s.resetBlock_disp, Display.getPixel_clear]

end Sys2Proof.Proofs
end

section
/-!
PROOFS. The encoding as a whole (spec/30_encoding.md): decoding and encoding are inverse to each
other, and the words that decode are those a row of spec/opcode_table.json matches.
-/

namespace Sys2Proof

/-! ## A decoded word is the encoding of its instruction -/

theorem encodeWord_of_decodeFamily8 {w : Word} {i : Instr} (hop : fieldOp w = 0x8#4)
    (h : decodeFamily8 w = .ok i) : encodeWord i = w ∧ i.wellFormed = true := by
  have hw := wordXYN_fields w
  unfold decodeFamily8 at h
  split at h
  case h_10 => cases h
  all_goals
    rename_i hn
    cases h
    rw [hop, hn] at hw
    exact ⟨hw, rfl⟩

theorem encodeWord_of_decodeFamilyE {w : Word} {i : Instr} (hop : fieldOp w = 0xE#4)
    (h : decodeFamilyE w = .ok i) : encodeWord i = w ∧ i.wellFormed = true := by
  have hw := wordXKK_fields w
  unfold decodeFamilyE at h
  split at h
  case h_3 => cases h
  all_goals
    rename_i hkk
    cases h
    rw [hop, hkk] at hw
    exact ⟨hw, rfl⟩

theorem encodeWord_of_decodeFamilyF {w : Word} {i : Instr} (hop : fieldOp w = 0xF#4)
    (h : decodeFamilyF w = .ok i) : encodeWord i = w ∧ i.wellFormed = true := by
  have hw := wordXKK_fields w
  unfold decodeFamilyF at h
  split at h
  case h_10 => cases h
  all_goals
    rename_i hkk
    cases h
    rw [hop, hkk] at hw
    exact ⟨hw, rfl⟩

theorem encodeWord_of_decodeWord {w : Word} {i : Instr} (h : decodeWord w = .ok i) :
    encodeWord i = w ∧ i.wellFormed = true := by
  have hnnn := wordNNN_fields w
  have hxkk := wordXKK_fields w
  have hxyn := wordXYN_fields w
  unfold decodeWord at h
  split at h <;> rename_i hop
  case h_1 =>
    split at h
    · cases h
      exact ⟨Eq.symm ‹_›, rfl⟩
    · split at h
      · cases h
        exact ⟨Eq.symm ‹_›, rfl⟩
      · cases h
  case h_2 | h_3 | h_11 | h_12 =>
    cases h
    rw [hop] at hnnn
    exact ⟨hnnn, rfl⟩
  case h_4 | h_5 | h_7 | h_8 | h_13 =>
    cases h
    rw [hop] at hxkk
    exact ⟨hxkk, rfl⟩
  case h_6 | h_10 =>
    split at h
    next hn =>
      cases h
      rw [hop, hn] at hxyn
      exact ⟨hxyn, rfl⟩
    next => cases h
  case h_14 =>
    cases h
    refine ⟨?_, decide_eq_true (fieldN w).isLt⟩
    rw [hop] at hxyn
    simpa [encodeWord] using hxyn
  case h_9 => exact encodeWord_of_decodeFamily8 hop h
  case h_15 => exact encodeWord_of_decodeFamilyE hop h
  case h_16 =>
    refine encodeWord_of_decodeFamilyF ?_ h
    clear hnnn hxkk hxyn h
    generalize fieldOp w = op at *
    decide +revert

/-- Decoding and encoding are inverse to each other, so each word has one meaning. -/
theorem decodeWord_eq_ok_iff {w : Word} {i : Instr} :
    decodeWord w = .ok i ↔ w = encodeWord i ∧ i.wellFormed = true := by
  constructor
  · intro h
    obtain ⟨hw, hwf⟩ := encodeWord_of_decodeWord h
    exact ⟨hw.symm, hwf⟩
  · rintro ⟨rfl, hwf⟩
    exact decodeWord_encodeWord hwf

/-- The words that decode to a given instruction: its own word alone. -/
theorem decodeWord_eq_ok_iff_eq {i : Instr} (hwf : i.wellFormed = true) (w : Word) :
    decodeWord w = .ok i ↔ w = encodeWord i := by
  rw [decodeWord_eq_ok_iff, and_iff_left hwf]

/-! ## The words that do not decode -/

theorem decodeFamily8_error {w : Word} {e : DecodeError} (h : decodeFamily8 w = .error e) :
    e = .unknown w := by
  unfold decodeFamily8 at h
  split at h <;> cases h
  rfl

theorem decodeFamilyE_error {w : Word} {e : DecodeError} (h : decodeFamilyE w = .error e) :
    e = .unknown w := by
  unfold decodeFamilyE at h
  split at h <;> cases h
  rfl

theorem decodeFamilyF_error {w : Word} {e : DecodeError} (h : decodeFamilyF w = .error e) :
    e = .unknown w := by
  unfold decodeFamilyF at h
  split at h <;> cases h
  rfl

/-- A word is rejected for one reason only, and by its own value. -/
theorem decodeWord_error {w : Word} {e : DecodeError} (h : decodeWord w = .error e) :
    e = .unknown w := by
  unfold decodeWord at h
  split at h
  case h_1 =>
    split at h
    · cases h
    · split at h <;> cases h
      rfl
  case h_6 | h_10 =>
    split at h <;> cases h
    rfl
  case h_9 => exact decodeFamily8_error h
  case h_15 => exact decodeFamilyE_error h
  case h_16 => exact decodeFamilyF_error h
  all_goals cases h

/-- A word of family 5 or 9 with another low nibble matches no row as written (D3). -/
theorem decodeWord_skip_unknown (x y : RegIx) {n : BitVec 4} (hn : n ≠ 0) :
    decodeWord (wordXYN 0x5 x y n) = .error (.unknown (wordXYN 0x5 x y n)) ∧
    decodeWord (wordXYN 0x9 x y n) = .error (.unknown (wordXYN 0x9 x y n)) := by
  have hn' : n ≠ 0#4 := hn
  constructor <;> simp [decodeWord, hn']

/-! ## The rows of the opcode table -/

/-- The word of every instruction is one its row names. -/
theorem encodeWord_matches_row (i : Instr) :
    encodeWord i &&& (opcodeRow i).mask = (opcodeRow i).pattern := by
  cases i
  case cls | ret => rfl
  case jp | call | ldI | jpV0 => exact wordNNN_and _ _
  case seK | sneK | ldK | addK | rnd => exact wordXKK_and _ _ _
  case drw => exact wordXYN_and _ _ _ _
  case seR | ldR | orR | andR | xorR | addR | sub | shr | subn | shl | sneR =>
    exact wordXYN_and_low _ _ _ _
  case skp | sknp | ldVDT | ldVK | ldDTV | ldSTV | addI | ldF | ldB | ldMI | ldVMI =>
    exact wordXKK_and_low _ _ _

/-- A word that matches a row agrees with the row's pattern on a field that the mask covers. -/
theorem fieldOp_of_row {w mask pattern : Word} (hmask : fieldOp mask = 0xF#4)
    (h : w &&& mask = pattern) : fieldOp w = fieldOp pattern := by
  have hand : fieldOp (w &&& mask) = fieldOp w &&& fieldOp mask := BitVec.extractLsb'_and
  rw [← h, hand, hmask]
  exact BitVec.and_allOnes.symm

theorem fieldN_of_row {w mask pattern : Word} (hmask : fieldN mask = 0xF#4)
    (h : w &&& mask = pattern) : fieldN w = fieldN pattern := by
  have hand : fieldN (w &&& mask) = fieldN w &&& fieldN mask := BitVec.extractLsb'_and
  rw [← h, hand, hmask]
  exact BitVec.and_allOnes.symm

theorem fieldKK_of_row {w mask pattern : Word} (hmask : fieldKK mask = 0xFF#8)
    (h : w &&& mask = pattern) : fieldKK w = fieldKK pattern := by
  have hand : fieldKK (w &&& mask) = fieldKK w &&& fieldKK mask := BitVec.extractLsb'_and
  rw [← h, hand, hmask]
  exact BitVec.and_allOnes.symm

/-- A word that matches a row decodes: the row's pattern settles every field the decoder selects
by. -/
theorem decodeWord_of_row {w : Word} {i : Instr}
    (h : w &&& (opcodeRow i).mask = (opcodeRow i).pattern) : ∃ j, decodeWord w = .ok j := by
  cases i <;> simp only [opcodeRow] at h
  case cls | ret =>
    have hw : w = _ := BitVec.and_allOnes.symm.trans h
    exact ⟨_, by rw [hw]; rfl⟩
  case jp | call | seK | sneK | ldK | addK | ldI | jpV0 | rnd | drw =>
    have hop := fieldOp_of_row (by decide) h
    exact ⟨_, by rw [decodeWord, hop]; rfl⟩
  case seR | sneR =>
    have hop := fieldOp_of_row (by decide) h
    have hn := fieldN_of_row (by decide) h
    exact ⟨_, by rw [decodeWord, hop]; exact if_pos hn⟩
  case ldR | orR | andR | xorR | addR | sub | shr | subn | shl =>
    have hop := fieldOp_of_row (by decide) h
    have hn := fieldN_of_row (by decide) h
    exact ⟨_, by rw [decodeWord, hop]; rw [decodeFamily8, hn]; rfl⟩
  case skp | sknp =>
    have hop := fieldOp_of_row (by decide) h
    have hkk := fieldKK_of_row (by decide) h
    exact ⟨_, by rw [decodeWord, hop]; rw [decodeFamilyE, hkk]; rfl⟩
  case ldVDT | ldVK | ldDTV | ldSTV | addI | ldF | ldB | ldMI | ldVMI =>
    have hop := fieldOp_of_row (by decide) h
    have hkk := fieldKK_of_row (by decide) h
    exact ⟨_, by rw [decodeWord, hop]; rw [decodeFamilyF, hkk]; rfl⟩

/-- A word is unknown exactly when no row matches it (R78). -/
theorem decodeWord_unknown_iff {w : Word} :
    decodeWord w = .error (.unknown w) ↔
      ∀ i : Instr, w &&& (opcodeRow i).mask ≠ (opcodeRow i).pattern := by
  constructor
  · intro h i hrow
    obtain ⟨j, hj⟩ := decodeWord_of_row hrow
    rw [hj] at h
    cases h
  · intro hnone
    cases h : decodeWord w with
    | ok i =>
      obtain ⟨rfl, -⟩ := decodeWord_eq_ok_iff.1 h
      exact absurd (encodeWord_matches_row i) (hnone i)
    | error e => rw [decodeWord_error h]

end Sys2Proof

namespace Sys2Proof.Proofs

open Sys2Proof

/-- Settles O1: the two bytes make up the encoded word again, and the decoder reads the instruction
back from it. -/
theorem decodeOfEncodeIsInstruction : Obligations.DecodeOfEncodeIsInstruction := by
  intro i rest hwf
  simp only [encode, bytesOfWord, List.cons_append, List.nil_append, decode, wordOfBytes_high_low,
    decodeWord_encodeWord hwf]

/-- Settles O2: each arm of the decoder reads its operands from the fields that make up the word. -/
theorem encodeOfDecodeIsWord : Obligations.EncodeOfDecodeIsWord := fun _ _ =>
  encodeWord_of_decodeWord

/-- Settles O3: a row's pattern settles every field the decoder selects by, and the word of every
instruction matches its row. -/
theorem unknownExactlyWhenNoRowMatches : Obligations.UnknownExactlyWhenNoRowMatches := fun _ =>
  decodeWord_unknown_iff

/-- Settles O4: each word is a closed one, which the decoder evaluates. -/
theorem sampleWordsDecode : Obligations.SampleWordsDecode := by
  unfold Obligations.SampleWordsDecode
  decide

end Sys2Proof.Proofs
end

section
/-!
PROOFS. How a step ends (spec/60_exceptions.md section 1): when each shared operation completes,
faults or is refused, and with them which instruction stops and where a fetch fails.
-/

namespace Sys2Proof.Machine

open Sys2Proof Sys2Proof.Claims

/-! ## The meanings -/

theorem exec_cls (s : State) : exec .cls s = .next (s.setDisp Display.clear).advance := rfl

theorem exec_ret (s : State) : exec .ret s = popThen s fun a t => .next (t.setPc a) := rfl

theorem exec_seR (x y : RegIx) (s : State) :
    exec (.seR x y) s = .next (s.skipIf (decide (s.getV x = s.getV y))) := rfl

theorem exec_sneR (x y : RegIx) (s : State) :
    exec (.sneR x y) s = .next (s.skipIf (decide (s.getV x ≠ s.getV y))) := rfl

theorem exec_rnd (x : RegIx) (kk : Byte) (s : State) :
    exec (.rnd x kk) s = .next (s.drawByte.2.setV x (s.drawByte.1 &&& kk)).advance := rfl

theorem exec_skp (x : RegIx) (s : State) :
    exec (.skp x) s =
      .next ((s.drawPressed (s.getV x)).2.skipIf (s.drawPressed (s.getV x)).1) := rfl

theorem exec_sknp (x : RegIx) (s : State) :
    exec (.sknp x) s =
      .next ((s.drawPressed (s.getV x)).2.skipIf (!(s.drawPressed (s.getV x)).1)) := rfl

/-- What Dxyn makes of the bytes it has read (R138). -/
def State.drawn (s : State) (x y : RegIx) (bytes : List Byte) : State :=
  (s.setDisp (drawSprite (s.getV x).toNat (s.getV y).toNat bytes s.disp).1).setV vf
    (collisionFlag (drawSprite (s.getV x).toNat (s.getV y).toNat bytes s.disp).2)

theorem exec_drw (x y : RegIx) (n : Nat) (s : State) :
    exec (.drw x y n) s = loadThen s s.base n fun bytes => .next (s.drawn x y bytes).advance := rfl

/-! ## When a shared operation completes -/

section
variable {s t : State} {base count : Nat} {bytes : List Byte} {a : Word}

theorem loadThen_eq_next {k : List Byte → Result} (h : loadThen s base count k = .next t) :
    k (s.bytesFrom base count) = .next t := by
  rcases loadThen_cases s base count k with ⟨heq, -⟩ | ⟨heq, -⟩ <;> rw [heq] at h
  · exact h
  · cases h

theorem storeThen_eq_next {k : State → Result} (hne : bytes ≠ [])
    (h : storeThen s base bytes k = .next t) :
    base + bytes.length ≤ 0x1000 ∧ storeAllowed s base ∧
      k (s.setMem (Memory.writeBytes s.mem base bytes)) = .next t := by
  rcases storeThen_cases s base bytes k hne with ⟨heq, hin, hfont⟩ | ⟨heq, -⟩ | ⟨heq, -⟩ <;>
    rw [heq] at h
  · exact ⟨hin, hfont, h⟩
  · cases h
  · cases h

theorem pushThen_eq_next {k : State → Result} (h : pushThen s a k = .next t) :
    ∃ hroom : s.sp.val < 16,
      k (s.setStack (s.stack.set s.sp.val a) ⟨s.sp.val + 1, by omega⟩) = .next t := by
  by_cases hroom : s.sp.val < 16
  · exact ⟨hroom, (pushThen_room s a k hroom).symm.trans h⟩
  · rw [pushThen_full s a k (by omega)] at h
    cases h

theorem popThen_eq_next {k : Word → State → Result} (h : popThen s k = .next t) :
    ∃ hsome : 0 < s.sp.val,
      k (s.stack[s.sp.val - 1]'(by omega)) (s.setStack s.stack ⟨s.sp.val - 1, by omega⟩)
        = .next t := by
  by_cases hsome : 0 < s.sp.val
  · exact ⟨hsome, (popThen_some s k hsome).symm.trans h⟩
  · rw [popThen_empty s k (by omega)] at h
    cases h

end

/-! ## The state an instruction leaves when it completes -/

section
variable {s t : State}

theorem exec_ret_next (h : exec .ret s = .next t) :
    ∃ hsome : 0 < s.sp.val, t = (s.setStack s.stack ⟨s.sp.val - 1, by omega⟩).setPc
      (s.stack[s.sp.val - 1]'(by omega)) := by
  rw [exec_ret] at h
  obtain ⟨hsome, h⟩ := popThen_eq_next h
  cases h
  exact ⟨hsome, rfl⟩

theorem exec_call_next {nnn : BitVec 12} (h : exec (.call nnn) s = .next t) :
    ∃ hroom : s.sp.val < 16,
      t = (s.setStack (s.stack.set s.sp.val (s.pc + 2)) ⟨s.sp.val + 1, by omega⟩).setPc
        (addrOperand nnn) := by
  rw [exec_call] at h
  obtain ⟨hroom, h⟩ := pushThen_eq_next h
  cases h
  exact ⟨hroom, rfl⟩

theorem exec_drw_next {x y : RegIx} {n : Nat} (h : exec (.drw x y n) s = .next t) :
    t = (s.drawn x y (s.bytesFrom s.base n)).advance := by
  rw [exec_drw] at h
  cases loadThen_eq_next h
  rfl

theorem exec_ldVMI_next {x : RegIx} (h : exec (.ldVMI x) s = .next t) :
    t = ((s.setRegBlock (s.bytesFrom s.base (x.val + 1))).bumpIndex x).advance := by
  rw [exec_ldVMI] at h
  cases loadThen_eq_next h
  rfl

theorem exec_ldB_next {x : RegIx} (h : exec (.ldB x) s = .next t) :
    s.base + 3 ≤ 0x1000 ∧ storeAllowed s s.base ∧
      t = (s.setMem (Memory.writeBytes s.mem s.base (decimalDigits (s.getV x)))).advance := by
  rw [exec_ldB] at h
  obtain ⟨hin, hfont, h⟩ := storeThen_eq_next (decimalDigits_ne_nil _) h
  cases h
  exact ⟨hin, hfont, rfl⟩

theorem exec_ldMI_next {x : RegIx} (h : exec (.ldMI x) s = .next t) :
    s.base + (s.regBlock x).length ≤ 0x1000 ∧ storeAllowed s s.base ∧
      t = ((s.setMem (Memory.writeBytes s.mem s.base (s.regBlock x))).bumpIndex x).advance := by
  rw [exec_ldMI] at h
  obtain ⟨hin, hfont, h⟩ := storeThen_eq_next (s.regBlock_ne_nil x) h
  cases h
  exact ⟨hin, hfont, rfl⟩

theorem exec_ldVK_next {x : RegIx} (h : exec (.ldVK x) s = .next t) :
    (s.drawKey = none ∧ t = s) ∨
      ∃ k u, s.drawKey = some (k, u) ∧ t = (u.setV x (BitVec.ofNat 8 k.val)).advance := by
  cases hdraw : s.drawKey with
  | none =>
    cases (exec_ldVK_none x hdraw).symm.trans h
    exact .inl ⟨rfl, rfl⟩
  | some ku =>
    cases (exec_ldVK_some x hdraw).symm.trans h
    exact .inr ⟨_, _, rfl, rfl⟩

end

/-! ## When a shared operation stops -/

section
variable {s : State} {base count : Nat} {bytes : List Byte} {a : Word} {f : Fault} {r : Refusal}

theorem loadThen_eq_fault_iff {k : List Byte → State} :
    loadThen s base count (fun bytes => .next (k bytes)) = .fault f ↔
      f = .addressOutOfRange (max base 0x1000) ∧ count ≠ 0 ∧ 0x1000 < base + count := by
  rcases loadThen_cases s base count fun bytes => .next (k bytes) with
    ⟨heq, hin⟩ | ⟨heq, hcount, hout⟩ <;> rw [heq]
  · constructor
    · intro h
      cases h
    · rintro ⟨-, hcount, hout⟩
      simp only [Config.maxAddr] at hin
      omega
  · simp [hcount, hout, eq_comm]

theorem loadThen_ne_refused {k : List Byte → State} :
    loadThen s base count (fun bytes => .next (k bytes)) ≠ .refused r := by
  rcases loadThen_cases s base count fun bytes => .next (k bytes) with ⟨heq, -⟩ | ⟨heq, -⟩ <;>
    simp [heq]

theorem storeThen_eq_fault_iff {k : State → State} (hne : bytes ≠ []) :
    storeThen s base bytes (fun t => .next (k t)) = .fault f ↔
      f = .addressOutOfRange (max base 0x1000) ∧ 0x1000 < base + bytes.length := by
  rcases storeThen_cases s base bytes (fun t => .next (k t)) hne with
    ⟨heq, hin, -⟩ | ⟨heq, hout⟩ | ⟨heq, hin, -⟩ <;> rw [heq]
  · simp [Nat.not_lt.2 hin]
  · simp [hout, eq_comm]
  · simp [Nat.not_lt.2 hin]

/-- The range check comes before the font check, but no block that starts in the font region leaves
the address space, as long as it has at most 16 bytes. -/
theorem storeThen_eq_refused_iff {k : State → State} (hne : bytes ≠ [])
    (hlen : bytes.length ≤ 16) :
    storeThen s base bytes (fun t => .next (k t)) = .refused r ↔
      r = .fontWrite base ∧ base < 0x50 ∧ s.params.fontWrite = .refuse := by
  rcases storeThen_cases s base bytes (fun t => .next (k t)) hne with
    ⟨heq, -, hfont⟩ | ⟨heq, hout⟩ | ⟨heq, -, hfont, hparam⟩ <;> rw [heq]
  · rcases hfont with hfont | hfont
    · simp [Nat.not_lt.2 hfont]
    · simp [hfont]
  · simp only [Config.maxAddr] at hout
    simp only [reduceCtorEq, false_iff]
    rintro ⟨-, hfont, -⟩
    omega
  · simp [hfont, hparam, eq_comm]

theorem pushThen_eq_fault_iff {k : State → State} :
    pushThen s a (fun t => .next (k t)) = .fault f ↔ f = .stackOverflow ∧ s.sp.val = 16 := by
  by_cases hroom : s.sp.val < 16
  · rw [pushThen_room s a _ hroom]
    simp [Nat.ne_of_lt hroom]
  · have hfull : s.sp.val = 16 := by omega
    rw [pushThen_full s a _ hfull]
    simp [hfull, eq_comm]

theorem popThen_eq_fault_iff {k : Word → State → State} :
    popThen s (fun a t => .next (k a t)) = .fault f ↔ f = .stackUnderflow ∧ s.sp.val = 0 := by
  by_cases hsome : 0 < s.sp.val
  · rw [popThen_some s _ hsome]
    simp [Nat.ne_of_gt hsome]
  · have hempty : s.sp.val = 0 := by omega
    rw [popThen_empty s _ hempty]
    simp [hempty, eq_comm]

theorem pushThen_ne_refused {k : State → State} :
    pushThen s a (fun t => .next (k t)) ≠ .refused r := by
  unfold pushThen
  split <;> simp [raise]

theorem popThen_ne_refused {k : Word → State → State} :
    popThen s (fun a t => .next (k a t)) ≠ .refused r := by
  unfold popThen
  split <;> simp [raise]

end

/-! ## Which instructions stop -/

/-- The instructions that go through the stack or through an address check. -/
def mayStop (i : Instr) : Bool :=
  match i with
  | .ret | .call _ | .drw _ _ _ | .ldB _ | .ldMI _ | .ldVMI _ => true
  | _ => false

/-- Every other instruction completes from every state. -/
theorem exec_completes (i : Instr) (s : State) (h : mayStop i = false) :
    ∃ t, exec i s = .next t := by
  cases i
  case ret | call | drw | ldB | ldMI | ldVMI => cases h
  case ldVK x =>
    cases hdraw : s.drawKey with
    | none => exact ⟨_, exec_ldVK_none x hdraw⟩
    | some kt => exact ⟨_, exec_ldVK_some x hdraw⟩
  all_goals exact ⟨_, rfl⟩

theorem exec_eq_fault_iff {i : Instr} {s : State} {f : Fault} : exec i s = .fault f ↔
    (f = .stackOverflow ∧ (∃ nnn, i = .call nnn) ∧ s.sp.val = 16) ∨
    (f = .stackUnderflow ∧ i = .ret ∧ s.sp.val = 0) ∨
    (f = .addressOutOfRange (max s.base 0x1000) ∧ accessCount i ≠ 0 ∧
      0x1000 < s.base + accessCount i) := by
  have hcompletes := exec_completes i s
  cases i
  case call nnn =>
    rw [exec_call, pushThen_eq_fault_iff]
    simp [accessCount]
  case ret =>
    rw [exec_ret, popThen_eq_fault_iff]
    simp [accessCount]
  case drw x y n =>
    rw [exec_drw, loadThen_eq_fault_iff]
    simp [accessCount]
  case ldVMI x =>
    rw [exec_ldVMI, loadThen_eq_fault_iff]
    simp [accessCount]
  case ldB x =>
    rw [exec_ldB, storeThen_eq_fault_iff (decimalDigits_ne_nil _)]
    simp [accessCount]
  case ldMI x =>
    rw [exec_ldMI, storeThen_eq_fault_iff (s.regBlock_ne_nil x)]
    simp [accessCount]
  all_goals
    obtain ⟨t, ht⟩ := hcompletes rfl
    simp [ht, accessCount]

theorem exec_eq_refused_iff {i : Instr} {s : State} {r : Refusal} : exec i s = .refused r ↔
    stores i = true ∧ r = .fontWrite s.base ∧ s.base < 0x50 ∧ s.params.fontWrite = .refuse := by
  have hcompletes := exec_completes i s
  cases i
  case call nnn =>
    rw [exec_call]
    simp [pushThen_ne_refused, stores]
  case ret =>
    rw [exec_ret]
    simp [popThen_ne_refused, stores]
  case drw x y n =>
    rw [exec_drw]
    simp [loadThen_ne_refused, stores]
  case ldVMI x =>
    rw [exec_ldVMI]
    simp [loadThen_ne_refused, stores]
  case ldB x =>
    rw [exec_ldB, storeThen_eq_refused_iff (decimalDigits_ne_nil _) (by simp)]
    simp [stores]
  case ldMI x =>
    rw [exec_ldMI, storeThen_eq_refused_iff (s.regBlock_ne_nil x) (by simp)]
    simp [stores]
  all_goals
    obtain ⟨t, ht⟩ := hcompletes rfl
    simp [ht, stores]

/-! ## How a step ends -/

/-- A halted block answers its recorded fault (D11). -/
theorem step_halted {s : State} {f : Fault} (h : s.halt = some f) : step s = .fault f := by
  simp only [step, h, raise]

theorem step_fetched {s : State} {i : Instr} (hrun : s.halt = none) (hpc : s.pc.toNat < 0xFFF)
    (hword : decodeWord s.wordAtPc = .ok i) : step s = exec i s := by
  simp only [step, hrun, s.fetch_ok hpc hword]

theorem step_unknown {s : State} (hrun : s.halt = none) (hpc : s.pc.toNat < 0xFFF)
    (hword : decodeWord s.wordAtPc = .error (.unknown s.wordAtPc)) :
    step s = .fault (.unknownInstruction s.wordAtPc) := by
  simp only [step, hrun, s.fetch_unknown hpc hword, raise]

/-- The value of the word at PC, the byte at PC being the more significant (R50). -/
theorem State.wordAtPc_eq_ofNat (s : State) :
    s.wordAtPc = BitVec.ofNat 16
      ((s.byteAt s.pc.toNat).toNat * 256 + (s.byteAt (s.pc.toNat + 1)).toNat) := by
  rw [State.wordAtPc, ← wordOfBytes_toNat, BitVec.ofNat_toNat, BitVec.setWidth_eq]

theorem transact_step_of_refused {s : State} {r : Refusal} (h : step s = .refused r) :
    transact .step s = (s, .refused r) := by
  simp only [transact, h, commit]

end Sys2Proof.Machine

namespace Sys2Proof.Proofs

open Sys2Proof Sys2Proof.Machine Sys2Proof.Claims

/-- Settles O5: the word at PC is the big-endian value, and a step runs what it decodes to. -/
theorem stepRunsDecodedInstruction : Obligations.StepRunsDecodedInstruction := by
  intro s i hrun hpc hword
  rw [← s.wordAtPc_eq_ofNat] at hword
  exact step_fetched hrun (Nat.lt_succ_of_le hpc) hword

/-- Settles O6: the fetch of a running block from 0xFFF up. -/
theorem fetchAboveMemoryFaults : Obligations.FetchAboveMemoryFaults := fun _ =>
  step_fetchOutOfRange

/-- Settles O7: a word that no row matches is one the decoder rejects. -/
theorem unknownWordFaults : Obligations.UnknownWordFaults := by
  intro s hrun hpc hnone
  exact step_unknown hrun (Nat.lt_succ_of_le hpc) (decodeWord_unknown_iff.2 hnone)

/-- Settles O10: the six instructions that go through the stack or an address check, each by its
operation; the others complete. -/
theorem faultsOfInstructions : Obligations.FaultsOfInstructions := fun _ _ _ => exec_eq_fault_iff

/-- Settles O11: of the six instructions that can stop, only the two stores reach the font check. -/
theorem refusalsOfInstructions : Obligations.RefusalsOfInstructions :=
  ⟨fun _ _ _ => exec_eq_refused_iff, fun _ _ => transact_step_of_refused⟩

/-- Settles O52: the word at 0x200 after reset is 0x0000, which no row matches. -/
theorem firstStepWithoutProgramFaults : Obligations.FirstStepWithoutProgramFaults := by
  have hword : State.reset.wordAtPc = 0x0000 := by decide
  have hstep := step_unknown (s := State.reset) rfl (by decide) (by rw [hword]; rfl)
  rwa [hword] at hstep

end Sys2Proof.Proofs
end

section
/-!
PROOFS. What each instruction writes (spec/10_state.md R23, R24; spec/40_step_and_control.md R86):
the frames of the remaining updates, the frame and the PC of every instruction, and with them the
instructions whose statement is a frame and a few values.
-/

namespace Sys2Proof.Claims

open Sys2Proof Sys2Proof.Machine

/-! ## Frames -/

/-- A frame that leaves more open is weaker. -/
theorem Keeps.mono {may may' : List Part} {s t : State} (h : Keeps may s t) (hsub : may ⊆ may') :
    Keeps may' s t where
  regs r hr := h.regs r fun hin => hr (hsub hin)
  index hn := h.index fun hin => hn (hsub hin)
  slots k hk := h.slots k fun hin => hk (hsub hin)
  sp hn := h.sp fun hin => hn (hsub hin)
  delay hn := h.delay fun hin => hn (hsub hin)
  sound hn := h.sound fun hin => hn (hsub hin)
  display hn := h.display fun hin => hn (hsub hin)
  bytes a ha := h.bytes a fun hin => ha (hsub hin)
  rand hn := h.rand fun hin => hn (hsub hin)
  draws hn := h.draws fun hin => hn (hsub hin)
  halt := h.halt
  keys := h.keys
  params := h.params

/-- Writing DISP changes DISP alone. -/
theorem keeps_setDisp (s : State) (d : Display) : Keeps [.display] s (s.setDisp d) :=
  { Keeps.refl [.display] s with display := fun hn => absurd List.mem_cons_self hn }

/-- A pop moves SP alone: the slots keep their values. -/
theorem keeps_pop (s : State) (k : Fin 17) : Keeps [.sp] s (s.setStack s.stack k) :=
  { Keeps.refl [.sp] s with sp := fun hn => absurd List.mem_cons_self hn }

/-- A sprite draw writes DISP and VF. -/
theorem keeps_drawn (s : State) (x y : RegIx) (bytes : List Byte) :
    Keeps [.display, .reg vf] s (s.drawn x y bytes) :=
  ((keeps_setDisp s _).mono (List.cons_subset_cons _ (List.nil_subset _))).setV
    (List.mem_cons_of_mem _ List.mem_cons_self) _

/-- A random draw uses up a byte lined up, or counts a free value (log 7, log 8). -/
theorem keeps_drawByte (s : State) : Keeps (drawParts s) s s.drawByte.2 := by
  rcases s.drawByte_cases with ⟨r, rest, hrand, hdraw⟩ | ⟨hrand, hdraw⟩
  · simp only [hdraw, drawParts, hrand, reduceCtorEq, if_false]
    exact { Keeps.refl [.rand] s with rand := fun hn => absurd List.mem_cons_self hn }
  · simp only [hdraw, drawParts, hrand, if_true]
    exact (Keeps.refl _ s).countDraw List.mem_cons_self

/-- Reading a key's level changes nothing, but for a number above 15 it counts a free value
(log 8, log 9). -/
theorem keeps_drawPressed (s : State) (k : Byte) :
    Keeps (if 15 < k.toNat then [.draws] else []) s (s.drawPressed k).2 := by
  by_cases hk : 15 < k.toNat
  · rw [if_pos hk, s.drawPressed_free k hk]
    exact (Keeps.refl _ s).countDraw List.mem_cons_self
  · rw [if_neg hk, s.drawPressed_key k (by omega)]
    exact Keeps.refl _ s

/-- Every instruction writes PC and what its row lists (R23). -/
theorem exec_keeps {i : Instr} {s t : State} (h : exec i s = .next t) :
    Keeps (tableWrites i s) s t := by
  cases i
  case cls =>
    cases h
    exact (keeps_setDisp s _).advance
  case ret =>
    obtain ⟨_, rfl⟩ := exec_ret_next h
    exact (keeps_pop s _).setPc _
  case call nnn =>
    obtain ⟨hroom, rfl⟩ := exec_call_next h
    simp only [tableWrites, callSlot, dif_pos hroom]
    exact (keeps_push s _ hroom _).setPc _
  case jp | jpV0 =>
    cases h
    exact (Keeps.refl _ s).setPc _
  case seK | sneK | seR | sneR =>
    cases h
    exact (Keeps.refl _ s).skipIf _
  case ldK x _ | addK x _ | ldR x _ | orR x _ | andR x _ | xorR x _ | ldVDT x =>
    cases h
    exact (keeps_setV s x _).advance
  case addR x y =>
    cases h
    exact (keeps_setV_vf_setV s x _ _).advance
  case sub x y | shr x y | subn x y | shl x y =>
    cases h
    exact (keeps_flagThenResult s x y _ _).advance
  case ldI | addI | ldF =>
    cases h
    exact (keeps_setIndex s _).advance
  case rnd x kk =>
    cases h
    exact (((keeps_drawByte s).mono (List.subset_cons_self _ _)).setV List.mem_cons_self _).advance
  case drw x y n =>
    rw [exec_drw_next h]
    exact (keeps_drawn s x y _).advance
  case skp x | sknp x =>
    cases h
    exact (keeps_drawPressed s (s.getV x)).skipIf _
  case ldVK x =>
    rcases exec_ldVK_next h with ⟨-, rfl⟩ | ⟨k, u, hdraw, rfl⟩
    · exact Keeps.refl _ t
    · have hpressed : ∃ k : KeyIx, s.keys[k.val] = true := ⟨k, (s.drawKey_some hdraw).1⟩
      simp only [tableWrites, if_pos hpressed]
      exact ((keeps_drawKey hdraw (by simp)).setV List.mem_cons_self _).advance
  case ldDTV =>
    cases h
    exact (keeps_setDt s _).advance
  case ldSTV =>
    cases h
    exact (keeps_setSt s _).advance
  case ldB x =>
    obtain ⟨-, -, rfl⟩ := exec_ldB_next h
    exact (Keeps.writeBytes (bytes := decimalDigits (s.getV x)) (Keeps.refl _ s)
      (List.Subset.refl _)).advance
  case ldMI x =>
    obtain ⟨-, -, rfl⟩ := exec_ldMI_next h
    have hstored := (Keeps.refl (.index :: blockBytes s.base (x.val + 1)) s).writeBytes
      (base := s.base) (bytes := s.regBlock x) (by simp)
    exact (hstored.bumpIndex List.mem_cons_self x).advance
  case ldVMI x =>
    rw [exec_ldVMI_next h]
    have hloaded := (Keeps.refl (.index :: blockRegs x) s).setRegBlock
      (s.bytesFrom_length s.base (x.val + 1)) (List.subset_cons_self _ _)
    exact (hloaded.bumpIndex List.mem_cons_self x).advance

/-- VF is in the row of the instructions that write it as a flag or as their destination alone. -/
theorem vf_notMem_tableWrites {i : Instr} (s : State) (hflag : writesFlag i = false)
    (hdest : destIsVf i = false) : Part.reg vf ∉ tableWrites i s := by
  cases i
  case addR | sub | shr | subn | shl | drw => cases hflag
  case ldK x _ | addK x _ | ldR x _ | orR x _ | andR x _ | xorR x _ | ldVDT x =>
    simpa [tableWrites, destIsVf, eq_comm] using hdest
  case rnd x _ =>
    have hx : x ≠ vf := by simpa [destIsVf] using hdest
    simp only [tableWrites, drawParts]
    split <;> simp [hx.symm]
  case ldVK x =>
    have hx : x ≠ vf := by simpa [destIsVf] using hdest
    simp only [tableWrites]
    split <;> simp [hx.symm]
  case ldVMI x =>
    have hx : x ≠ vf := by simpa [destIsVf] using hdest
    simpa [tableWrites] using lt_of_le_of_ne (Fin.le_last x) hx
  case call =>
    simp only [tableWrites, callSlot]
    split <;> simp
  case skp | sknp =>
    simp only [tableWrites]
    split <;> simp
  all_goals simp [tableWrites, blockBytes]

end Sys2Proof.Claims

namespace Sys2Proof.Machine

open Sys2Proof Sys2Proof.Claims

/-! ## PC after an instruction -/

theorem State.drawByte_pc (s : State) : s.drawByte.2.pc = s.pc := by
  rcases s.drawByte_cases with ⟨r, rest, -, hdraw⟩ | ⟨-, hdraw⟩ <;> rw [hdraw] <;> rfl

theorem State.drawPressed_pc (s : State) (k : Byte) : (s.drawPressed k).2.pc = s.pc := by
  unfold State.drawPressed
  split <;> rfl

theorem State.skipIf_pc_or (s : State) (taken : Bool) :
    (s.skipIf taken).pc = s.pc + 4 ∨ (s.skipIf taken).pc = s.pc + 2 := by
  cases taken with
  | true => exact .inl rfl
  | false => exact .inr rfl

/-- The default update: the instruction falls through (R86). -/
theorem exec_pc_of_not_setsPc {i : Instr} {s t : State} (hi : setsPc i = false)
    (h : exec i s = .next t) : t.pc = s.pc + 2 := by
  cases i
  case ret | jp | call | jpV0 | seK | sneK | seR | sneR | skp | sknp | ldVK => cases hi
  case sub x y | shr x y | subn x y | shl x y =>
    cases h
    exact flagThenResult_advance_pc s x y _ _
  case rnd =>
    cases h
    rw [State.advance_pc, State.setV_pc, s.drawByte_pc]
  case drw => rw [exec_drw_next h]; rfl
  case ldVMI => rw [exec_ldVMI_next h]; rfl
  case ldB =>
    obtain ⟨-, -, rfl⟩ := exec_ldB_next h
    rfl
  case ldMI =>
    obtain ⟨-, -, rfl⟩ := exec_ldMI_next h
    rfl
  all_goals
    cases h
    rfl

theorem exec_pc_of_isSkip {i : Instr} {s t : State} (hi : isSkip i = true)
    (h : exec i s = .next t) : t.pc = s.pc + 4 ∨ t.pc = s.pc + 2 := by
  cases i
  case seK | sneK | seR | sneR =>
    cases h
    exact s.skipIf_pc_or _
  case skp x | sknp x =>
    cases h
    rw [← s.drawPressed_pc (s.getV x)]
    exact State.skipIf_pc_or _ _
  all_goals cases hi

theorem exec_ldVK_pc {x : RegIx} {s t : State} (h : exec (.ldVK x) s = .next t) :
    t.pc = s.pc + 2 ∨ (t.pc = s.pc ∧ ∀ k : KeyIx, s.keys[k.val] = false) := by
  rcases exec_ldVK_next h with ⟨hdraw, rfl⟩ | ⟨k, u, hdraw, rfl⟩
  · exact .inr ⟨rfl, t.drawKey_eq_none_iff.1 hdraw⟩
  · left
    rw [State.advance_pc, State.setV_pc, State.drawKey_pc hdraw]

end Sys2Proof.Machine

namespace Sys2Proof.Proofs

open Sys2Proof Sys2Proof.Machine Sys2Proof.Claims

/-- Settles O12: the frame of every instruction. -/
theorem instructionsWriteOnlyTheirRow : Obligations.InstructionsWriteOnlyTheirRow := fun _ _ _ =>
  exec_keeps

/-- Settles O13: the default update, the skips and the wait for a key, each by its own lemma. -/
theorem defaultPcUpdate : Obligations.DefaultPcUpdate := by
  intro i s t h
  refine ⟨fun hi => exec_pc_of_not_setsPc hi h, fun hi => exec_pc_of_isSkip hi h, ?_⟩
  rintro x rfl
  exact exec_ldVK_pc h

/-- Settles O14: by the frame of every instruction, whose row then does not list VF. -/
theorem onlyFlagInstructionsChangeVF : Obligations.OnlyFlagInstructionsChangeVF := by
  intro i s t h hflag hdest
  exact (exec_keeps h).regs vf (vf_notMem_tableWrites s hflag hdest)

/-- Settles O18: a pop, then `setPc`; on an empty stack the pop faults. -/
theorem returnPopsAddress : Obligations.ReturnPopsAddress := by
  refine ⟨decodeWord_eq_ok_iff_eq (i := .ret) rfl,
    fun s => ⟨fun hsome => ?_, fun hempty => ?_⟩⟩
  · have hexec := (exec_ret s).trans (popThen_some s _ hsome)
    exact ⟨_, hexec, rfl, rfl, (keeps_pop s _).setPc _⟩
  · exact (exec_ret s).trans (popThen_empty s _ hempty)

/-- Settles O24: both are `skipIf`, on the equality and on the inequality of two registers. -/
theorem skipOnTwoRegisters : Obligations.SkipOnTwoRegisters := by
  intro x y s
  refine ⟨decodeWord_eq_ok_iff_eq (i := .seR x y) rfl,
    decodeWord_eq_ok_iff_eq (i := .sneR x y) rfl, fun n hn => decodeWord_skip_unknown x y hn,
    ⟨_, exec_seR x y s, ?_, (Keeps.refl _ s).skipIf _⟩,
    ⟨_, exec_sneR x y s, ?_, (Keeps.refl _ s).skipIf _⟩⟩
  · simp only [State.skipIf_pc, decide_eq_true_eq]
  · simp only [State.skipIf_pc, decide_eq_true_eq, ne_eq, ite_not]

/-- Settles O34: the byte drawn is masked into V[x]; where a byte is lined up it is the oldest
one. -/
theorem randomByteMasked : Obligations.RandomByteMasked := by
  intro x kk s
  refine ⟨decodeWord_encodeWord (i := .rnd x kk) rfl, _, s.drawByte.1, exec_rnd x kk s,
    State.getV_setV_same _ x _, ?_, exec_keeps (exec_rnd x kk s), fun oldest later hrand => ?_⟩
  · exact exec_pc_of_not_setsPc rfl (exec_rnd x kk s)
  · have hdraw : s.drawByte = (oldest, s.setRand later) := by rw [State.drawByte, hrand]
    rw [hdraw]
    exact ⟨rfl, rfl⟩

/-- Settles O42: 00E0 is `setDisp` of the cleared display. -/
theorem clearScreen : Obligations.ClearScreen := by
  exact ⟨decodeWord_eq_ok_iff_eq (i := .cls) rfl, fun s =>
    ⟨_, exec_cls s, rfl, (keeps_setDisp s _).advance, Display.getPixel_clear⟩⟩

/-- Settles O45: the sprite is the block at I, drawn from it and with its collision in VF. -/
theorem drawSpriteInstruction : Obligations.DrawSpriteInstruction := by
  intro x y n s hn
  refine ⟨decodeWord_encodeWord (i := .drw x y n) (decide_eq_true hn), fun hrange => ?_,
    fun hpos hout => ?_⟩
  · have hexec := (exec_drw x y n s).trans (loadThen_inRange s _ hrange)
    refine ⟨_, s.bytesFrom s.base n, hexec, s.bytesFrom_length _ _, fun k hk => ?_, rfl, ?_, rfl,
      (keeps_drawn s x y _).advance⟩
    · rw [List.getD_eq_getElem _ _ (by rwa [s.bytesFrom_length]), s.bytesFrom_getElem _ _ _ hk]
    · rw [State.getV_advance, State.drawn, State.getV_setV_same, collisionFlag, b2v_toNat]
  · have hcount : n ≠ 0 := Nat.ne_of_gt hpos
    have habove : Config.maxAddr + 1 < s.base + n := by
      simp only [Config.maxAddr]
      omega
    exact ⟨_, (exec_drw x y n s).trans (loadThen_outOfRange s _ hcount habove)⟩

/-- Settles O46: for a number up to 15 the level read is the key's; above 15 either skip is one of
the two outcomes, and the draw counts. -/
theorem skipOnKey : Obligations.SkipOnKey := by
  intro x s
  refine ⟨decodeWord_encodeWord (i := .skp x) rfl, decodeWord_encodeWord (i := .sknp x) rfl,
    fun k hk => ?_, fun hfree => ?_⟩
  · have hdraw : s.drawPressed (s.getV x) = (s.keys[k.val], s) := by
      simp only [s.drawPressed_key (s.getV x) (by omega), hk]
    refine ⟨⟨_, exec_skp x s, ?_, ?_⟩, ⟨_, exec_sknp x s, ?_, ?_⟩⟩ <;> rw [hdraw]
    · exact s.skipIf_pc _
    · exact (Keeps.refl _ s).skipIf _
    · simp only [State.skipIf_pc, Bool.not_eq_true']
      cases s.keys[k.val] <;> rfl
    · exact (Keeps.refl _ s).skipIf _
  · have hkeeps := keeps_drawPressed s (s.getV x)
    rw [if_pos hfree] at hkeeps
    exact ⟨⟨_, exec_skp x s, exec_pc_of_isSkip rfl (exec_skp x s), hkeeps.skipIf _⟩,
      ⟨_, exec_sknp x s, exec_pc_of_isSkip rfl (exec_sknp x s), hkeeps.skipIf _⟩⟩

end Sys2Proof.Proofs
end

section
/-!
PROOFS. What an instruction does not read (spec/10_state.md sections 6, 7 and 12): an instruction that
neither reads nor overwrites a part of the state does the same whatever that part holds, and with it
the statements about ST, the inputs and the dead stack slots.
-/

namespace Sys2Proof.Claims

open Sys2Proof Sys2Proof.Machine

/-! ## Changes of the parts that few instructions read -/

/-- A change of the stack's slots, of ST and of the two inputs. -/
structure SideChange where
  slots : Vector Word 16 → Vector Word 16 := id
  sound : Byte → Byte := id
  keys : Vector Bool 16 → Vector Bool 16 := id
  rand : List Byte → List Byte := id

/-- The state after a change. -/
def SideChange.on (c : SideChange) (s : State) : State :=
  { s with stack := c.slots s.stack, st := c.sound s.st, keys := c.keys s.keys,
           rand := c.rand s.rand }

/-- The change leaves alone what the instruction reads or overwrites. -/
def SideChange.MissedBy (c : SideChange) (i : Instr) : Prop :=
  match i with
  | .ret | .call _ => c.slots = id
  | .ldSTV _ => c.sound = id
  | .skp _ | .sknp _ | .ldVK _ => c.keys = id
  | .rnd _ _ => c.rand = id
  | _ => True

/-! ## The shared operations under a change -/

section
variable (c : SideChange) (s : State)

theorem skipIf_on (taken : Bool) : (c.on s).skipIf taken = c.on (s.skipIf taken) := by
  cases taken <;> rfl

theorem flagThenResult_on (x y : RegIx) (f g : Byte → Byte → Byte) :
    flagThenResult (c.on s) x y f g = c.on (flagThenResult s x y f g) := by
  have hparams : (c.on s).params = s.params := rfl
  rw [flagThenResult, flagThenResult, hparams]
  cases s.params.vfAlias <;> rfl

theorem loadThen_on (base count : Nat) {k k' : List Byte → Result}
    (hk : ∀ bytes, k' bytes = mapNext c.on (k bytes)) :
    loadThen (c.on s) base count k' = mapNext c.on (loadThen s base count k) := by
  rw [loadThen, loadThen]
  cases lowestOutOfRange (addressesFrom base count) with
  | some a => rfl
  | none => exact hk _

theorem storeThen_on (base : Nat) (bytes : List Byte) {k : State → Result}
    (hk : ∀ t, k (c.on t) = mapNext c.on (k t)) :
    storeThen (c.on s) base bytes k = mapNext c.on (storeThen s base bytes k) := by
  have hparams : (c.on s).params = s.params := rfl
  rw [storeThen, storeThen, hparams]
  cases lowestOutOfRange (addressesFrom base bytes.length) with
  | some a => rfl
  | none =>
    cases s.params.fontWrite with
    | store => exact hk (s.setMem _)
    | refuse =>
      cases lowestFontAddress (addressesFrom base bytes.length) with
      | some a => rfl
      | none => exact hk (s.setMem _)

variable {c s}

theorem pushThen_on (hc : c.slots = id) (a : Word) {k : State → Result}
    (hk : ∀ t, k (c.on t) = mapNext c.on (k t)) :
    pushThen (c.on s) a k = mapNext c.on (pushThen s a k) := by
  by_cases hroom : s.sp.val < 16
  · rw [pushThen_room s a k hroom, pushThen_room (c.on s) a k hroom, ← hk]
    simp only [SideChange.on, hc]
    rfl
  · have hfull : s.sp.val = 16 := by omega
    rw [pushThen_full s a k hfull, pushThen_full (c.on s) a k hfull]
    rfl

theorem popThen_on (hc : c.slots = id) {k : Word → State → Result}
    (hk : ∀ a t, k a (c.on t) = mapNext c.on (k a t)) :
    popThen (c.on s) k = mapNext c.on (popThen s k) := by
  by_cases hsome : 0 < s.sp.val
  · rw [popThen_some s k hsome, popThen_some (c.on s) k hsome, ← hk]
    simp only [SideChange.on, hc]
    rfl
  · have hempty : s.sp.val = 0 := by omega
    rw [popThen_empty s k hempty, popThen_empty (c.on s) k hempty]
    rfl

theorem drawPressed_on (hc : c.keys = id) (k : Byte) :
    (c.on s).drawPressed k = ((s.drawPressed k).1, c.on (s.drawPressed k).2) := by
  by_cases hk : k.toNat < 16
  · rw [s.drawPressed_key k hk, (c.on s).drawPressed_key k hk]
    simp only [SideChange.on, hc, id]
  · rw [s.drawPressed_free k (by omega), (c.on s).drawPressed_free k (by omega)]
    rfl

theorem drawByte_on (hc : c.rand = id) :
    (c.on s).drawByte = (s.drawByte.1, c.on s.drawByte.2) := by
  have hrand : (c.on s).rand = s.rand := by simp only [SideChange.on, hc, id]
  rw [State.drawByte, State.drawByte, hrand]
  cases h : s.rand with
  | nil => rfl
  | cons r rest =>
    simp only [SideChange.on, State.setRand, hc, id]

theorem drawKey_on (hc : c.keys = id) :
    (c.on s).drawKey = s.drawKey.map fun ku => (ku.1, c.on ku.2) := by
  have hkeys : (c.on s).pressedKeys = s.pressedKeys := by
    simp only [State.pressedKeys, SideChange.on, hc, id]
  rw [State.drawKey, State.drawKey, hkeys]
  split <;> rfl

end

/-- An instruction that a change misses commutes with it. -/
theorem exec_on {c : SideChange} {i : Instr} (hc : c.MissedBy i) (s : State) :
    exec i (c.on s) = mapNext c.on (exec i s) := by
  cases i
  case ret =>
    rw [exec_ret, exec_ret]
    exact popThen_on hc fun _ _ => rfl
  case call =>
    rw [exec_call, exec_call]
    exact pushThen_on hc _ fun _ => rfl
  case seK | sneK | seR | sneR => exact congrArg Host.Outcome.next (skipIf_on c s _)
  case sub x y | shr x y | subn x y | shl x y =>
    exact congrArg (fun t : State => Host.Outcome.next t.advance) (flagThenResult_on c s x y _ _)
  case ldSTV x =>
    have hsound : c.sound = id := hc
    simp only [exec_ldSTV, mapNext, SideChange.on, hsound]
    rfl
  case rnd x kk =>
    rw [exec_rnd, exec_rnd, drawByte_on hc]
    rfl
  case drw =>
    rw [exec_drw, exec_drw]
    exact loadThen_on c s _ _ fun _ => rfl
  case ldVMI =>
    rw [exec_ldVMI, exec_ldVMI]
    exact loadThen_on c s _ _ fun _ => rfl
  case ldB =>
    rw [exec_ldB, exec_ldB]
    exact storeThen_on c s _ _ fun _ => rfl
  case ldMI =>
    rw [exec_ldMI, exec_ldMI]
    exact storeThen_on c s _ _ fun _ => rfl
  case skp x =>
    rw [exec_skp, exec_skp, drawPressed_on hc, skipIf_on]
    rfl
  case sknp =>
    rw [exec_sknp, exec_sknp, drawPressed_on hc, skipIf_on]
    rfl
  case ldVK x =>
    have hdraw := drawKey_on (s := s) hc
    cases h : s.drawKey with
    | none =>
      rw [h] at hdraw
      rw [exec_ldVK_none x h, exec_ldVK_none x hdraw]
      rfl
    | some ku =>
      rw [h] at hdraw
      rw [exec_ldVK_some x h, exec_ldVK_some x hdraw]
      rfl
  all_goals rfl

/-! ## Dead stack slots -/

/-- Only 00EE and 2nnn have the stack in their rows. -/
theorem stack_notMem_tableWrites {i : Instr} (s : State) (hret : i ≠ .ret)
    (hcall : ∀ nnn, i ≠ .call nnn) :
    Part.sp ∉ tableWrites i s ∧ ∀ k, Part.slot k ∉ tableWrites i s := by
  cases i
  case ret => exact absurd rfl hret
  case call nnn => exact absurd rfl (hcall nnn)
  case rnd =>
    simp only [tableWrites, drawParts]
    split <;> simp
  case skp | sknp | ldVK =>
    simp only [tableWrites]
    split <;> simp
  all_goals simp [tableWrites, blockBytes, blockRegs]

/-- Replacing the stack's slots. -/
def slotsTo (slots : Vector Word 16) : SideChange := { slots := fun _ => slots }

/-- States that differ in dead slots alone are those that replace the slots and keep the live
ones. -/
theorem SameLive.exists_slots {s t : State} (h : SameLive s t) :
    ∃ slots : Vector Word 16, t = (slotsTo slots).on s ∧
      ∀ k : Fin 16, k.val < s.sp.val → slots[k.val] = s.stack[k.val] :=
  ⟨t.stack, h.rest, h.live⟩

section
variable {s : State} {slots : Vector Word 16}
  (hlive : ∀ k : Fin 16, k.val < s.sp.val → slots[k.val] = s.stack[k.val])
include hlive

/-- Two pops read the same slot, which lies below SP. -/
theorem exec_ret_slotsTo :
    SameLiveOutcome (exec .ret s) (exec .ret ((slotsTo slots).on s)) := by
  rw [exec_ret, exec_ret]
  by_cases hsome : 0 < s.sp.val
  · have htop : slots[s.sp.val - 1] = s.stack[s.sp.val - 1] :=
      hlive ⟨s.sp.val - 1, by omega⟩ (Nat.sub_one_lt_of_lt hsome)
    rw [popThen_some s _ hsome, popThen_some ((slotsTo slots).on s) _ hsome]
    refine ⟨?_, fun k hk => hlive k (Nat.lt_of_lt_of_le hk (Nat.sub_le _ _))⟩
    rw [← htop]
    rfl
  · have hempty : s.sp.val = 0 := by omega
    rw [popThen_empty s _ hempty, popThen_empty ((slotsTo slots).on s) _ hempty]
    exact rfl

/-- Two pushes store the same address to the slot at SP, which is then live. -/
theorem exec_call_slotsTo (nnn : BitVec 12) :
    SameLiveOutcome (exec (.call nnn) s) (exec (.call nnn) ((slotsTo slots).on s)) := by
  rw [exec_call, exec_call]
  by_cases hroom : s.sp.val < 16
  · rw [pushThen_room s _ _ hroom, pushThen_room ((slotsTo slots).on s) _ _ hroom]
    refine ⟨rfl, fun k hk => ?_⟩
    change (slots.set s.sp.val (s.pc + 2))[k.val] = (s.stack.set s.sp.val (s.pc + 2))[k.val]
    have hk' : k.val < s.sp.val + 1 := hk
    rw [Vector.getElem_set, Vector.getElem_set]
    split
    · rfl
    · exact hlive k (by omega)
  · have hfull : s.sp.val = 16 := by omega
    rw [pushThen_full s _ _ hfull, pushThen_full ((slotsTo slots).on s) _ _ hfull]
    exact rfl

/-- Any other instruction leaves the stack alone and misses the change. -/
theorem exec_slotsTo {i : Instr} (hret : i ≠ .ret) (hcall : ∀ nnn, i ≠ .call nnn) :
    SameLiveOutcome (exec i s) (exec i ((slotsTo slots).on s)) := by
  have hmissed : (slotsTo slots).MissedBy i := by
    cases i
    case ret => exact absurd rfl hret
    case call nnn => exact absurd rfl (hcall nnn)
    case skp | sknp | ldVK | rnd | ldSTV => exact rfl
    all_goals trivial
  rw [exec_on hmissed]
  cases hexec : exec i s with
  | fault f => exact rfl
  | refused r => exact rfl
  | next u =>
    obtain ⟨hspRow, hslotRow⟩ := stack_notMem_tableWrites s hret hcall
    have hframe := exec_keeps hexec
    refine ⟨rfl, fun k hk => ?_⟩
    rw [hframe.sp hspRow] at hk
    exact (hlive k hk).trans (hframe.slots k (hslotRow k)).symm

end

theorem exec_sameLive (i : Instr) {s t : State} (h : SameLive s t) :
    SameLiveOutcome (exec i s) (exec i t) := by
  obtain ⟨slots, rfl, hlive⟩ := h.exists_slots
  by_cases hret : i = .ret
  · rw [hret]
    exact exec_ret_slotsTo hlive
  by_cases hcall : ∃ nnn, i = .call nnn
  · obtain ⟨nnn, rfl⟩ := hcall
    exact exec_call_slotsTo hlive nnn
  · exact exec_slotsTo hlive hret (not_exists.1 hcall)

/-- The step fetches the same instruction, as it reads no stack slot. -/
theorem step_sameLive {s t : State} (h : SameLive s t) : SameLiveOutcome (step s) (step t) := by
  have hhalt : t.halt = s.halt := by rw [h.rest]
  have hfetch : t.fetch = s.fetch := by rw [h.rest]; rfl
  rw [step, step, hhalt, hfetch]
  cases s.halt with
  | some f => exact rfl
  | none =>
    cases s.fetch with
    | error f => exact rfl
    | ok i => exact exec_sameLive i h

end Sys2Proof.Claims

namespace Sys2Proof.Proofs

open Sys2Proof Sys2Proof.Machine Sys2Proof.Claims

/-- Settles O15: every instruction but Fx18 misses a change of ST, and Fx18 overwrites it. -/
theorem noInstructionReadsSoundTimer : Obligations.NoInstructionReadsSoundTimer := by
  intro i s b
  split
  next h =>
    obtain ⟨x, rfl⟩ := h
    rfl
  next h =>
    have hmissed : SideChange.MissedBy { sound := fun _ => b } i := by
      cases i
      case ldSTV x => exact absurd ⟨x, rfl⟩ h
      case ret | call | skp | sknp | ldVK | rnd => exact rfl
      all_goals trivial
    exact exec_on hmissed s

/-- Settles O16: an instruction that reads no input misses a change of both. -/
theorem otherInstructionsReadNoInput : Obligations.OtherInstructionsReadNoInput := by
  intro i s keys bytes h
  have hmissed : SideChange.MissedBy { keys := fun _ => keys, rand := fun _ => bytes } i := by
    cases i
    case skp | sknp | ldVK | rnd => cases h
    case ret | call | ldSTV => exact rfl
    all_goals trivial
  exact exec_on hmissed s

/-- Settles O17: a pop reads a live slot, a push makes the slot at SP live with one value, and every
other instruction misses a change of the slots. -/
theorem deadStackSlotsUnobservable : Obligations.DeadStackSlotsUnobservable := fun _ _ =>
  step_sameLive

end Sys2Proof.Proofs
end

section
/-!
PROOFS. Invariants of steps and runs (spec/60_exceptions.md section 4): what each host transaction
leaves, an invariant's way through a run, and with them the halted block, the font bytes under
FONT_WRITE = refuse, and the canonical memory with the ranges of PC and of the return addresses.
-/

namespace Sys2Proof.Machine

open Sys2Proof Sys2Proof.Claims

/-! ## Transactions and runs -/

/-- What every transaction of a run keeps, the run keeps. -/
theorem runTransactions_induction {P : State → Prop} {as : List Transaction}
    (hkeep : ∀ a ∈ as, ∀ s, P s → P (transact a s).1) {s : State} (hs : P s) :
    P (runTransactions as s) := by
  induction as generalizing s with
  | nil => exact hs
  | cons a as ih =>
    exact ih (fun b hb => hkeep b (List.mem_cons_of_mem a hb)) (hkeep a List.mem_cons_self s hs)

/-- A step leaves its next state, the state before it with HALT set, or the state before it. -/
theorem transact_step_cases (s : State) :
    (∃ t, step s = .next t ∧ (transact .step s).1 = t) ∨
      (∃ f, (transact .step s).1 = s.setHalt (some f)) ∨ (transact .step s).1 = s := by
  cases h : step s with
  | next t => exact .inl ⟨t, rfl, by simp only [transact, h, commit]⟩
  | fault f => exact .inr (.inl ⟨f, congrArg Prod.fst (transact_step_of_fault h)⟩)
  | refused r => exact .inr (.inr (congrArg Prod.fst (transact_step_of_refused h)))

theorem transact_loadProgram_fits (s : State) {bytes : List Byte} (h : bytes.length ≤ 3584) :
    transact (.loadProgram bytes) s
      = (s.setMem (Memory.writeBytes s.mem 0x200 bytes), .ok) := by
  simp only [transact, State.loadProgram, if_pos h, commit]

theorem transact_loadProgram_tooLong (s : State) {bytes : List Byte} (h : 3584 < bytes.length) :
    transact (.loadProgram bytes) s = (s, .refused (.programTooLong bytes.length)) := by
  simp only [transact, State.loadProgram, if_neg (Nat.not_le.2 h), commit]

/-! ## HALT -/

/-- The step of a halted block writes to HALT the fault that stands there. -/
theorem transact_step_of_halted {s : State} {f : Fault} (h : s.halt = some f) :
    transact .step s = (s, .fault f) := by
  have hself : s.setHalt (some f) = s := by rw [← h]; rfl
  rw [transact_step_of_fault (step_halted h), hself]

/-- No transaction but `reset` clears HALT (D11). -/
theorem transact_keeps_halt {a : Transaction} (ha : a ≠ .reset) {s : State} {f : Fault}
    (h : s.halt = some f) : (transact a s).1.halt = some f := by
  cases a
  case reset => exact absurd rfl ha
  case step => rw [transact_step_of_halted h, h]
  case loadProgram bytes =>
    by_cases hlen : bytes.length ≤ 3584
    · rw [transact_loadProgram_fits s hlen]
      exact h
    · rw [transact_loadProgram_tooLong s (Nat.not_le.1 hlen)]
      exact h
  all_goals exact h

/-! ## The font bytes -/

/-- Under FONT_WRITE = refuse an instruction that completes has no font byte in its row. -/
theorem font_notMem_tableWrites {i : Instr} {s t : State} (hparam : s.params.fontWrite = .refuse)
    (h : exec i s = .next t) {a : Nat} (ha : a < 0x50) : Part.byte a ∉ tableWrites i s := by
  have habove (hallowed : storeAllowed s s.base) : 0x50 ≤ s.base :=
    hallowed.resolve_right (by simp [hparam])
  cases i
  case ldB =>
    obtain ⟨-, hallowed, -⟩ := exec_ldB_next h
    have hbase := habove hallowed
    rw [tableWrites, byte_mem_blockBytes]
    omega
  case ldMI =>
    obtain ⟨-, hallowed, -⟩ := exec_ldMI_next h
    have hbase := habove hallowed
    rw [tableWrites, List.mem_cons, byte_mem_blockBytes]
    simp only [reduceCtorEq, false_or]
    omega
  case call =>
    simp only [tableWrites, callSlot]
    split <;> simp
  case rnd =>
    simp only [tableWrites, drawParts]
    split <;> simp
  case skp | sknp | ldVK =>
    simp only [tableWrites]
    split <;> simp
  all_goals simp [tableWrites, blockRegs]

/-- A step keeps the parameters and, under FONT_WRITE = refuse, the font bytes. -/
theorem step_keeps_font {s t : State} (hparam : s.params.fontWrite = .refuse)
    (h : step s = .next t) :
    t.params = s.params ∧ ∀ a < 0x50, t.byteAt a = s.byteAt a := by
  obtain ⟨-, -, i, -, hexec⟩ := step_next h
  have hframe := exec_keeps hexec
  exact ⟨hframe.params, fun a ha => hframe.bytes a (font_notMem_tableWrites hparam hexec ha)⟩

/-- So does every transaction but `reset`: a program is loaded above the font region. -/
theorem transact_keeps_font {a : Transaction} (ha : a ≠ .reset) {s : State}
    (hparam : s.params.fontWrite = .refuse) :
    (transact a s).1.params = s.params ∧ ∀ b < 0x50, (transact a s).1.byteAt b = s.byteAt b := by
  cases a
  case reset => exact absurd rfl ha
  case step =>
    rcases transact_step_cases s with ⟨t, hstep, heq⟩ | ⟨f, heq⟩ | heq <;> rw [heq]
    · exact step_keeps_font hparam hstep
    · exact ⟨rfl, fun _ _ => rfl⟩
    · exact ⟨rfl, fun _ _ => rfl⟩
  case loadProgram bytes =>
    by_cases hlen : bytes.length ≤ 3584
    · rw [transact_loadProgram_fits s hlen]
      exact ⟨rfl, fun b hb => Memory.read_writeBytes_ne s.mem bytes (.inl (by omega))⟩
    · rw [transact_loadProgram_tooLong s (Nat.not_le.1 hlen)]
      exact ⟨rfl, fun _ _ => rfl⟩
  all_goals exact ⟨rfl, fun _ _ => rfl⟩

/-! ## The invariant -/

theorem State.drawByte_mem (s : State) : s.drawByte.2.mem = s.mem := by
  rcases s.drawByte_cases with ⟨r, rest, -, hdraw⟩ | ⟨-, hdraw⟩ <;> rw [hdraw] <;> rfl

theorem State.drawPressed_mem (s : State) (k : Byte) : (s.drawPressed k).2.mem = s.mem := by
  unfold State.drawPressed
  split <;> rfl

theorem exec_mem_of_not_stores {i : Instr} {s t : State} (hi : stores i = false)
    (h : exec i s = .next t) : t.mem = s.mem := by
  cases i
  case ldB | ldMI => cases hi
  case ret =>
    obtain ⟨_, rfl⟩ := exec_ret_next h
    rfl
  case call =>
    obtain ⟨_, rfl⟩ := exec_call_next h
    rfl
  case seK | sneK | seR | sneR =>
    cases h
    exact s.skipIf_mem _
  case sub x y | shr x y | subn x y | shl x y =>
    cases h
    exact flagThenResult_mem s x y _ _
  case rnd =>
    cases h
    exact s.drawByte_mem
  case drw =>
    rw [exec_drw_next h]
    rfl
  case ldVMI =>
    rw [exec_ldVMI_next h]
    rfl
  case skp x | sknp x =>
    cases h
    exact (State.skipIf_mem _ _).trans (s.drawPressed_mem (s.getV x))
  case ldVK =>
    rcases exec_ldVK_next h with ⟨-, rfl⟩ | ⟨k, u, hdraw, rfl⟩
    · rfl
    · obtain ⟨-, rfl | rfl⟩ := s.drawKey_some hdraw <;> rfl
  all_goals
    cases h
    rfl

/-- A store that completes lies within the address space. -/
theorem exec_wf {i : Instr} {s t : State} (hwf : Memory.wf s.mem = true)
    (h : exec i s = .next t) : Memory.wf t.mem = true := by
  cases hi : stores i with
  | false => rwa [exec_mem_of_not_stores hi h]
  | true =>
    cases i
    case ldB =>
      obtain ⟨hin, -, rfl⟩ := exec_ldB_next h
      exact Memory.wf_writeBytes hwf hin
    case ldMI =>
      obtain ⟨hin, -, rfl⟩ := exec_ldMI_next h
      exact Memory.wf_writeBytes hwf hin
    all_goals cases hi

/-- Below 0xFFF neither update of a running block's PC wraps. -/
theorem pc_add_two_toNat {w : Word} (h : w.toNat < 0xFFF) : (w + 2).toNat = w.toNat + 2 :=
  BitVec.toNat_add_of_lt (Nat.lt_of_lt_of_le (Nat.add_lt_add_right h 2) (by decide))

theorem pc_add_four_toNat {w : Word} (h : w.toNat < 0xFFF) : (w + 4).toNat = w.toNat + 4 :=
  BitVec.toNat_add_of_lt (Nat.lt_of_lt_of_le (Nat.add_lt_add_right h 4) (by decide))

/-- PC advances from at most 0xFFE, takes a 12-bit address or one plus a byte, or a return
address. -/
theorem exec_pcRange {i : Instr} {s t : State} (hret : s.returnsBounded)
    (hpc : s.pc.toNat < 0xFFF) (h : exec i s = .next t) : t.pc.toNat ≤ 0x10FE := by
  have hskip : t.pc = s.pc + 4 ∨ t.pc = s.pc + 2 → t.pc.toNat ≤ 0x10FE := by
    rintro (heq | heq) <;> rw [heq]
    · rw [pc_add_four_toNat hpc]
      omega
    · rw [pc_add_two_toNat hpc]
      omega
  cases hi : setsPc i with
  | false => exact hskip (.inr (exec_pc_of_not_setsPc hi h))
  | true =>
    cases i
    case ret =>
      obtain ⟨hsome, rfl⟩ := exec_ret_next h
      have hslot := hret ⟨s.sp.val - 1, by omega⟩ (Nat.sub_one_lt_of_lt hsome)
      exact Nat.le_trans hslot (by decide)
    case jp nnn =>
      cases h
      have hnnn := nnn.isLt
      rw [State.setPc_pc, addrOperand_toNat]
      omega
    case call nnn =>
      obtain ⟨_, rfl⟩ := exec_call_next h
      have hnnn := nnn.isLt
      rw [State.setPc_pc, addrOperand_toNat]
      omega
    case jpV0 nnn =>
      cases h
      have hnnn := nnn.isLt
      have hv0 := (s.getV 0).isLt
      rw [State.setPc_pc, jpV0_target_toNat]
      omega
    case seK | sneK | seR | sneR | skp | sknp => exact hskip (exec_pc_of_isSkip rfl h)
    case ldVK =>
      rcases exec_ldVK_pc h with heq | ⟨heq, -⟩
      · exact hskip (.inr heq)
      · rw [heq]
        omega
    all_goals cases hi

/-- A call pushes at most 0x1000, a return drops an address, and nothing else touches the stack. -/
theorem exec_returnsBounded {i : Instr} {s t : State} (hret : s.returnsBounded)
    (hpc : s.pc.toNat < 0xFFF) (h : exec i s = .next t) : t.returnsBounded := by
  intro k hk
  by_cases hi : i = .ret
  · subst hi
    obtain ⟨_, rfl⟩ := exec_ret_next h
    exact hret k (Nat.lt_of_lt_of_le hk (Nat.sub_le _ _))
  by_cases hi' : ∃ nnn, i = .call nnn
  · obtain ⟨nnn, rfl⟩ := hi'
    obtain ⟨hroom, rfl⟩ := exec_call_next h
    have hk' : k.val < s.sp.val + 1 := hk
    change ((s.stack.set s.sp.val (s.pc + 2))[k.val]).toNat ≤ 0x1000
    rw [Vector.getElem_set]
    split
    · rw [pc_add_two_toNat hpc]
      omega
    · exact hret k (by omega)
  · obtain ⟨hspRow, hslotRow⟩ := stack_notMem_tableWrites s hi (not_exists.1 hi')
    have hframe := exec_keeps h
    rw [hframe.slots k (hslotRow k)]
    exact hret k (hframe.sp hspRow ▸ hk)

theorem step_keeps_inv {s t : State} (hinv : s.Inv) (h : step s = .next t) : t.Inv := by
  obtain ⟨hwf, -, hret⟩ := hinv
  obtain ⟨-, hpc, i, -, hexec⟩ := step_next h
  exact ⟨exec_wf hwf hexec, exec_pcRange hret hpc hexec, exec_returnsBounded hret hpc hexec⟩

theorem resetBlock_inv (s : State) : s.resetBlock.Inv where
  memory := resetMemory_wf s.params.font
  pcRange := by rw [s.resetBlock_pc]; decide
  returns _ hk := absurd hk (Nat.not_lt_zero _)

theorem transact_keeps_inv (a : Transaction) {s : State} (hinv : s.Inv) :
    (transact a s).1.Inv := by
  obtain ⟨hwf, hpc, hret⟩ := hinv
  cases a
  case step =>
    rcases transact_step_cases s with ⟨t, hstep, heq⟩ | ⟨f, heq⟩ | heq <;> rw [heq]
    · exact step_keeps_inv ⟨hwf, hpc, hret⟩ hstep
    · exact ⟨hwf, hpc, hret⟩
    · exact ⟨hwf, hpc, hret⟩
  case reset => exact resetBlock_inv s
  case loadProgram bytes =>
    by_cases hlen : bytes.length ≤ 3584
    · rw [transact_loadProgram_fits s hlen]
      exact ⟨Memory.wf_writeBytes hwf (by simp only [Config.maxAddr]; omega), hpc, hret⟩
    · rw [transact_loadProgram_tooLong s (Nat.not_le.1 hlen)]
      exact ⟨hwf, hpc, hret⟩
  all_goals exact ⟨hwf, hpc, hret⟩

end Sys2Proof.Machine

namespace Sys2Proof.Proofs

open Sys2Proof Sys2Proof.Machine Sys2Proof.Claims

/-- Settles O9: HALT is an invariant of runs without a reset, and the step of a halted block writes
nothing new. -/
theorem haltLastsUntilReset : Obligations.HaltLastsUntilReset := by
  intro s f as hhalt hreset
  have hrun : (runTransactions as s).halt = some f :=
    runTransactions_induction (P := fun t => t.halt = some f)
      (fun a ha _ h => transact_keeps_halt (fun e => hreset (e ▸ ha)) h) hhalt
  exact ⟨hrun, transact_step_of_halted hrun, State.resetBlock_halt _⟩

/-- Settles O41: the parameter and the font bytes are an invariant of runs without a reset. -/
theorem fontNeverChangesUnderRefuse : Obligations.FontNeverChangesUnderRefuse := by
  intro as s hparam hreset
  have hrun : (runTransactions as s).params = s.params ∧
      ∀ a < 0x50, (runTransactions as s).byteAt a = s.byteAt a := by
    refine runTransactions_induction
      (P := fun t => t.params = s.params ∧ ∀ a < 0x50, t.byteAt a = s.byteAt a)
      (fun a ha t ht => ?_) ⟨rfl, fun _ _ => rfl⟩
    obtain ⟨hparams, hbytes⟩ := ht
    obtain ⟨hparams', hbytes'⟩ :=
      transact_keeps_font (s := t) (fun e => hreset (e ▸ ha)) (by rw [hparams, hparam])
    exact ⟨hparams'.trans hparams, fun b hb => (hbytes' b hb).trans (hbytes b hb)⟩
  exact hrun.2

/-- Settles O54: memory has no entry, PC is 0x200 and the stack is empty. -/
theorem resetMeetsInvariant : Obligations.ResetMeetsInvariant where
  memory := rfl
  pcRange := by decide
  returns _ hk := absurd hk (Nat.not_lt_zero _)

/-- Settles O55: the three parts of the invariant, for the instruction that the step runs. -/
theorem stepKeepsInvariant : Obligations.StepKeepsInvariant := fun _ _ => step_keeps_inv

/-- Settles O56: every transaction keeps the invariant, so every run does. -/
theorem runsKeepInvariant : Obligations.RunsKeepInvariant := fun _ _ =>
  runTransactions_induction fun a _ _ => transact_keeps_inv a

end Sys2Proof.Proofs
end

section
/-!
PROOFS. Sequences of an instruction with what comes after it (spec/20_memory.md section 6,
spec/40_step_and_control.md section 2, spec/70_reset_and_hazards.md): a call with its return, a store
over the next instruction, a timer write with its ticks, and a program load.
-/

namespace Sys2Proof.Machine

open Sys2Proof Sys2Proof.Claims

/-- The word of V0 and V1, where Fx55 stores them at PC (R64). -/
theorem State.wordAtPc_of_regBlock {s t : State} {x : RegIx} (hx : x ≠ 0)
    (hbytes : ∀ k : RegIx, k ≤ x → t.byteAt (s.base + k.val) = s.getV k)
    (hpc : t.pc.toNat = s.base) : t.wordAtPc = wordOfBytes (s.getV 0) (s.getV 1) := by
  have hone : (1 : RegIx) ≤ x := Fin.one_le_of_ne_zero hx
  rw [State.wordAtPc, hpc, ← hbytes 0 (Fin.zero_le x), ← hbytes 1 hone]
  rfl

/-- Each tick takes one off DT, clamped at 0. -/
theorem runTransactions_tickDelay_dt (k : Nat) (s : State) :
    (runTransactions (List.replicate k .tickDelay) s).dt.toNat = s.dt.toNat - k := by
  induction k generalizing s with
  | zero => rfl
  | succ k ih =>
    have hrest : (runTransactions (List.replicate (k + 1) .tickDelay) s).dt.toNat
        = s.tickDelay.dt.toNat - k := ih s.tickDelay
    rw [hrest, s.tickDelay_dt_toNat]
    omega

end Sys2Proof.Machine

namespace Sys2Proof.Proofs

open Sys2Proof Sys2Proof.Machine Sys2Proof.Claims

/-- Settles O21: the return pops the slot that the call stored to. -/
theorem returnGoesBackAfterCall : Obligations.ReturnGoesBackAfterCall := by
  intro nnn s hroom
  refine ⟨_, (exec_call nnn s).trans (pushThen_room s _ _ hroom), fun u hstack hsp => ?_⟩
  have hsp' : u.sp.val = s.sp.val + 1 := congrArg Fin.val hsp
  have hpop := (exec_ret u).trans (popThen_some u _ (by omega))
  refine ⟨_, hpop, ?_, Fin.ext ?_⟩
  · have hslot : u.stack = s.stack.set s.sp.val (s.pc + 2) := hstack
    simp [hslot, hsp']
  · change u.sp.val - 1 = s.sp.val
    omega

/-- Settles O40: the store ends before the fetch, which reads the bytes of V0 and V1. -/
theorem storeSeenByNextFetch : Obligations.StoreSeenByNextFetch := by
  intro x s i hrun hwf hrange hallowed hx hbase hword
  obtain ⟨-, hstored, -⟩ := registerBlockStored x s
  obtain ⟨t, hexec, hbytes, -, hpc, hkeeps⟩ := hstored hwf hrange hallowed
  have hx' : x.val ≠ 0 := fun e => hx (Fin.ext e)
  have hpc' : t.pc.toNat = s.base := by
    rw [hpc, pc_add_two_toNat (by omega), hbase]
  refine ⟨t, hexec, step_fetched (hkeeps.halt.trans hrun) (by omega) ?_⟩
  rwa [State.wordAtPc_of_regBlock hx hbytes hpc']

/-- Settles O50: the ticks count the written value down, and Fx07 reads what is left. -/
theorem delayReadAfterTicks : Obligations.DelayReadAfterTicks := by
  intro x y s k
  refine ⟨_, exec_ldDTV x s, _, exec_ldVDT y _, ?_⟩
  rw [State.getV_advance, State.getV_setV_same, runTransactions_tickDelay_dt]
  rfl

/-- Settles O53: a block store from 0x200, which ends at 0xFFF at the latest. -/
theorem programLoad : Obligations.ProgramLoad := by
  intro bytes s hwf
  refine ⟨fun hlen => ?_, transact_loadProgram_tooLong s⟩
  have hrange : 0x200 + bytes.length ≤ Config.maxAddr + 1 := by
    simp only [Config.maxAddr]
    omega
  refine ⟨_, transact_loadProgram_fits s hlen, fun k hk => ?_, rfl,
    (Keeps.refl _ s).writeBytes (List.Subset.refl _)⟩
  rw [s.byteAt_writeBytes hwf hrange k hk, List.getD_eq_getElem _ _ hk]

end Sys2Proof.Proofs
end
